-- ==== Sys2Proof/Word.lean ====
section
/-! DEFINITION. The words of the block and the integer notation of 00_scope.md rules R5 and R6. -/

namespace Sys2Proof

/-- A byte of the packed ROM image (20_memory.md R24). -/
abbrev Byte := BitVec 8

/-- The operand `angle`: 16 bits unsigned (10_state.md R18). -/
abbrev Angle := BitVec 16

/-- A request word REQ17 (30_encoding.md R37). -/
abbrev ReqWord := BitVec 17

/-- A response word RESP16, two's complement (30_encoding.md R38). -/
abbrev RespWord := BitVec 16

/-- `a div b` of 00_scope.md R6: integer division truncating toward zero. -/
abbrev divTrunc (a b : Int) : Int := Int.tdiv a b

/-- `signed_16(p)` of 00_scope.md R6: the integer that a response word denotes. -/
abbrev RespWord.value (p : RespWord) : Int := p.toInt

/-- `sext_256(p)`: the document's `int256` pattern of a response (30_encoding.md R38). -/
abbrev RespWord.int256 (p : RespWord) : BitVec 256 := p.signExtend 256

end Sys2Proof
end

