-- ==== Sys2Proof/Config.lean ====
section
/-! DEFINITION. The parameters of 00_scope.md rule R4, the one parameter that the spec leaves open, and
the one free value of the model. None of them is a run-time register (10_state.md R17). -/

namespace Sys2Proof.Config

/-- ANGLES_IN_CYCLE: angle units in a full circle. -/
@[simp] abbrev anglesInCycle : Nat := 16384
/-- QUADRANT: angle units in a quadrant. -/
@[simp] abbrev quadrant : Nat := 4096
/-- INTERP_WIDTH. -/
@[simp] abbrev interpWidth : Nat := 8
/-- INTERP_OFFSET. -/
@[simp] abbrev interpOffset : Nat := 0
/-- INDEX_WIDTH. -/
@[simp] abbrev indexWidth : Nat := 4
/-- INDEX_OFFSET. -/
@[simp] abbrev indexOffset : Nat := 8
/-- Q_LOW_MASK: bit 12, the reading direction. -/
@[simp] abbrev qLowMask : Angle := 0x1000
/-- Q_HIGH_MASK: bit 13, the sign. -/
@[simp] abbrev qHighMask : Angle := 0x2000
/-- INTERP_DIVISOR: 2 ^ INTERP_WIDTH. -/
@[simp] abbrev interpDivisor : Int := 256
/-- TABLE_SAMPLES: sample points in a quadrant; used for the mirror base only (41_sine_table_rom.md R58). -/
@[simp] abbrev tableSamples : Nat := 16
/-- TABLE_ENTRIES: entries in the ROM, the sentinel included (R58). -/
@[simp] abbrev tableEntries : Nat := 17
/-- The index of the last entry, the sentinel: TABLE_ENTRIES - 1 (R58). -/
@[simp] abbrev sentinelIndex : Nat := tableEntries - 1
/-- ENTRY_BYTES: bytes of an entry in the packed image. -/
@[simp] abbrev entryBytes : Nat := 2
/-- The length of the packed image, 34 bytes (20_memory.md R24). -/
@[simp] abbrev imageBytes : Nat := tableEntries * entryBytes
/-- AMPLITUDE: the value of the sentinel. -/
@[simp] abbrev amplitude : Nat := 32767
/-- MIRROR_BASE: TABLE_SAMPLES - 1 (42_sine_engine.md R60). -/
@[simp] abbrev mirrorBase : Nat := tableSamples - 1
/-- WORD_W: the working word size of `extractBits` (40_angle_decomposer.md R48, D10). -/
@[simp] abbrev wordW : Nat := 16
/-- RESULT_W: the width of the response (D3). -/
@[simp] abbrev resultW : Nat := 16
/-- REQ_W: the width of a request word (D4). -/
@[simp] abbrev reqW : Nat := 17
/-- ANGLE_W: the width of the operand. -/
@[simp] abbrev angleW : Nat := 16
/-- ANGLE_SIG_W: the low bits of the operand that affect a result (40_angle_decomposer.md R54). -/
@[simp] abbrev angleSigW : Nat := 14
/-- OP_W: the width of the operation select. -/
@[simp] abbrev opW : Nat := 1
/-- ENTRY_W: the width of a table entry. -/
@[simp] abbrev entryW : Nat := 16
/-- SAMPLE_STEP: angle units between two samples. -/
@[simp] abbrev sampleStep : Nat := 256
/-- ROM_ADDR_W: the width of the ROM word address (D11). -/
@[simp] abbrev romAddrW : Nat := 5

/-- LATENCY, left OPEN by 70_reset_and_hazards.md R111: no rule depends on it and nothing reads it (log 6). -/
opaque latency : Nat

/-- FREE VALUE (log 5, DESIGN CHOICE, safe): the pattern of a result outside [-32768, 32767], where `twos_16`
of 00_scope.md R6 has no value. Only a ROM that breaks the contract of 10_state.md R12 can give such a result. -/
opaque twos16Outside : Int → RespWord

end Sys2Proof.Config
end

