-- ==== Sys2Proof/Syntax.lean ====
section
/-! DEFINITION. The operations of 30_encoding.md rule R40, and a request as rule R44 writes it in text. -/

namespace Sys2Proof

/-- The operation set (30_encoding.md R40): both operations take one 16-bit operand. -/
inductive Instr where
  /-- `SIN angle`, 42_sine_engine.md R68. -/
  | sin (angle : Angle)
  /-- `COS angle`, 43_cosine_adapter.md R74. -/
  | cos (angle : Angle)
  deriving DecidableEq, Repr

/-- The names of the two operations in the text form (30_encoding.md R44). -/
inductive Mnemonic where
  | sin
  | cos
  deriving DecidableEq, Repr

/-- A request as a line of text gives it: the operand is a literal, not yet known to fit (30_encoding.md R44). -/
structure Line where
  mnemonic : Mnemonic
  operand : Nat
  deriving DecidableEq, Repr

/-- The operand of an instruction. -/
def Instr.angle : Instr → Angle
  | .sin a => a
  | .cos a => a

/-- The value of the port `op` for an instruction (10_state.md R18). -/
def Instr.op : Instr → BitVec 1
  | .sin _ => 0
  | .cos _ => 1

end Sys2Proof
end

