-- ==== Sys2Proof/WellFormed.lean ====
section
/-! DEFINITION. What a well-formed term is. An instruction has no check of its own: its one field is a 16-bit
word and every value of it is accepted (30_encoding.md R41). A line of text has one: its literal fits the operand (R44). -/

namespace Sys2Proof

/-- Every instruction is well formed: no reserved or illegal operand exists (30_encoding.md R41, R42). -/
def Instr.wellFormed : Instr → Bool
  | .sin _ => true
  | .cos _ => true

/-- A line's literal lies in [0, 65535] (30_encoding.md R44). -/
def Line.wellFormed (l : Line) : Bool := decide (l.operand < 2 ^ Config.angleW)

end Sys2Proof
end

