-- ==== Sys2Proof/Decode.lean ====
section
/-! DEFINITION. Decoding and encoding of request words (30_encoding.md rules R37, R40, R46). -/

namespace Sys2Proof

/-- Why a number is no request word. -/
inductive Reject where
  /-- The number does not fit the 17 bits of REQ17 (30_encoding.md R43: every request is 17 bits). DEDUCED, safe (log 8). -/
  | notARequestWord (w : Nat)
  deriving DecidableEq, Repr

/-- Decode of a request word (30_encoding.md R46): total, no illegal encoding (R41). -/
def decode (w : ReqWord) : Instr :=
  if w.getLsbD 16 then .cos (w.extractLsb' 0 16) else .sin (w.extractLsb' 0 16)

/-- Decode of a number: 17 bits are a request word (30_encoding.md R43, R46), a longer number is rejected by name (log 8). -/
def decodeNat (w : Nat) : Except Reject Instr :=
  if w < 2 ^ Config.reqW then .ok (decode (BitVec.ofNat 17 w)) else .error (.notARequestWord w)

/-- Encoding, the inverse (30_encoding.md R46): `w = op * 65536 + angle`, the two fields tile the word. -/
def encode (i : Instr) : ReqWord := i.op ++ i.angle

/-- The decoder's answer to `w` as spec/opcode_table.json numbers a word's bits; the bits from `nbits` on are 0. -/
def decodeTableWord (nbits w : Nat) : Option Instr :=
  match decodeNat (w % 2 ^ nbits) with
  | .ok i => some i
  | .error _ => none

end Sys2Proof
end

