-- ==== Sys2Proof/Machine/State.lean ====
section
/-! DEFINITION. The state of the block, the reasons a step can stop, and the state after reset. -/

namespace Sys2Proof.Machine

/-- The sine table ROM (10_state.md R10) over the byte addresses of its packed image (20_memory.md R24): the cells
that differ from the image of R24, at rising addresses. No cell listed is the table of 10_state.md R11 (log 2). -/
abbrev Memory := List Host.Cell

/-- The model-level faults (60_exceptions.md R92, and one name of the model's). No request reaches any of them. -/
inductive Fault where
  /-- Raised by `lookup` with `index > 16` (41_sine_table_rom.md R57). Safe: the model stops and gives no value. -/
  | romIndexOutOfRange (index : Nat)
  /-- Raised by `extractBits` with `width + offset > 16` (40_angle_decomposer.md R49). Safe: the model stops. -/
  | extractBitsOutOfRange (width offset : Nat)
  /-- Raised by `memRead` outside the domain of 20_memory.md R25 (log 3, DESIGN CHOICE). Safe: the model stops. -/
  | memReadOutOfImage (addr n : Nat)
  deriving DecidableEq, Repr

/-- The refusals. The spec calls for none: both operations run on every operand (60_exceptions.md R91). -/
inductive Refusal where
  /-- Raised by an arm of `exec` that has no meaning yet. Safe. No arm answers it. -/
  | notModelled (mnemonic : String)
  deriving DecidableEq, Repr

/-- The block and the run around it. The ROM is the whole architectural state (10_state.md R10); the other two
fields are the run of 70_reset_and_hazards.md R112 (log 1). -/
structure State where
  /-- The sine table ROM `T` (10_state.md R10, R11). -/
  rom : Memory
  /-- The request stream not yet served; its head stands on the ports `op` and `angle` (R112, R18). -/
  requests : List ReqWord
  /-- The responses given so far, one per request served, in order (R112, R38). -/
  responses : List RespWord
  deriving DecidableEq, Repr

/-- After reset the ROM holds the table of 10_state.md R11 (R21, R104). No request is presented and no response has
been given (DESIGN CHOICE, log 1). -/
def State.reset : State where
  rom := []
  requests := []
  responses := []

end Sys2Proof.Machine
end

