-- ==== Sys2Proof/Machine/Flags.lean ====
section
/-! DEFINITION. The two quadrant flags. They live inside one operation and are never stored (10_state.md R16). -/

namespace Sys2Proof.Machine

/-- `fwd`, the document's isOddQuadrant: the table is read forward (40_angle_decomposer.md R52; 90_conflicts.md C4). -/
def fwdFlag (a : Angle) : Bool := a &&& Config.qLowMask == 0

/-- `neg`, the document's isNegativeQuadrant: the result is negated (40_angle_decomposer.md R52). -/
def negFlag (a : Angle) : Bool := a &&& Config.qHighMask != 0

end Sys2Proof.Machine
end

