-- ==== Sys2Proof/Machine/Operands.lean ====
section
/-! DEFINITION. The operand: bit extraction and the fields of the angle (40_angle_decomposer.md R48 to R51), and the
cosine adapter's shift (43_cosine_adapter.md R72). -/

namespace Sys2Proof.Machine

/-- `extractBits(value, width, offset)` on the 16-bit angle bus (40_angle_decomposer.md R48, R49). -/
def extractBits (value : Angle) (width offset : Nat) : Except Fault Nat :=
  if width + offset ≤ Config.wordW then .ok ((value.toNat >>> offset) &&& (2 ^ width - 1))
  else .error (.extractBitsOutOfRange width offset)

/-- `interp = a[7:0]` (40_angle_decomposer.md R51). -/
def interpOf (a : Angle) : Except Fault Nat := extractBits a Config.interpWidth Config.interpOffset

/-- `index = a[11:8]` (40_angle_decomposer.md R51). -/
def indexOf (a : Angle) : Except Fault Nat := extractBits a Config.indexWidth Config.indexOffset

/-- `shifted = (angle + 4096) mod 16384`, the sum exact (43_cosine_adapter.md R72; 90_conflicts.md C6, log 4). -/
def cosShift (a : Angle) : Angle := BitVec.ofNat 16 ((a.toNat + Config.quadrant) % Config.anglesInCycle)

end Sys2Proof.Machine
end

