-- ==== Sys2Proof/Machine/Rom.lean ====
section
/-! DEFINITION. The sine table ROM: its contents, its read primitive, its canonical form, and the checks made when it is
built (10_state.md R11, R12; 20_memory.md R23 to R25; 41_sine_table_rom.md R56 to R58; 70_reset_and_hazards.md R107). -/

namespace Sys2Proof.Machine

/-- The 17 entries of the table, the sentinel last (10_state.md R11). -/
def romWords : List (BitVec 16) :=
  [0x0000, 0x0c8c, 0x18f9, 0x2528, 0x30fb, 0x3c56, 0x471c, 0x5133] ++
  [0x5a82, 0x62f1, 0x6a6d, 0x70e2, 0x7641, 0x7a7c, 0x7d89, 0x7f61] ++ [0x7fff]

/-- The two bytes of an entry, the more significant one first (20_memory.md R24, R26). -/
def entryBytesOf (w : BitVec 16) : List Byte := [w.extractLsb' 8 8, w.extractLsb' 0 8]

/-- The packed image of the table, 34 bytes (20_memory.md R24). -/
def romImage : List Byte := romWords.flatMap entryBytesOf

/-- What an address that no cell lists reads as: the image of 20_memory.md R24. -/
def resetByte (addr : Nat) : Byte := romImage.getD addr 0

/-- The byte of the packed image at `addr`, for `addr < 34`. -/
def Memory.cell (m : Memory) (addr : Nat) : Byte := (m.lookup addr).getD (resetByte addr)

/-- `n` bytes from `addr` on, combined big-endian (20_memory.md R25). -/
def Memory.bytesBE (m : Memory) (addr : Nat) : Nat → Nat
  | 0 => 0
  | n + 1 => m.bytesBE addr n * 256 + (m.cell (addr + n)).toNat

/-- `T[i]`, for `i <= 16` (10_state.md R10): the word view of the image (20_memory.md R23, R25). -/
def Memory.entry (m : Memory) (i : Nat) : Nat := m.bytesBE (Config.entryBytes * i) Config.entryBytes

/-- `MemRead(addr, n)`, defined for `n >= 1` and `addr + n <= 34` (20_memory.md R25; outside it, log 3). -/
def memRead (m : Memory) (addr n : Nat) : Except Fault Nat :=
  if 1 ≤ n ∧ addr + n ≤ Config.imageBytes then .ok (m.bytesBE addr n) else .error (.memReadOutOfImage addr n)

/-- `lookup(index)` (41_sine_table_rom.md R56, R57); the bound is that of the 17 entries (R58). -/
def lookup (m : Memory) (index : Nat) : Except Fault Nat :=
  if index < Config.tableEntries then memRead m (Config.entryBytes * index) Config.entryBytes
  else .error (.romIndexOutOfRange index)

/-- The canonical form: addresses strictly rising, inside the image, and no cell equal to what its address reads as
when no cell lists it (log 2). -/
def Memory.wf (m : Memory) : Bool :=
  decide (m.Pairwise fun c d => c.1 < d.1) &&
    m.all fun c => decide (c.1 < Config.imageBytes) && c.2 != resetByte c.1

/-- The generator's contract (10_state.md R12): first 0, last 32767, never decreasing. That there are 17 entries of 16
bits is in the form of the memory; the bounds come from the 17 entries and not from TABLE_SAMPLES (R58). -/
def Memory.contract (m : Memory) : Bool :=
  m.entry 0 == 0 && m.entry Config.sentinelIndex == Config.amplitude &&
    (List.range Config.sentinelIndex).all fun i => decide (m.entry i ≤ m.entry (i + 1))

/-- The memory that holds a packed image: the bytes that differ from those of 20_memory.md R24. Build time only. -/
def Memory.ofImage (image : List Byte) : Memory :=
  (List.range Config.imageBytes).filterMap fun addr =>
    if image.getD addr 0 = resetByte addr then none else some (addr, image.getD addr 0)

/-- Loading the ROM when the device is configured, with the checks of 70_reset_and_hazards.md R107. It is no operation
of the block: the running block performs no check and writes nothing (R107, 20_memory.md R28). -/
def romOfImage (image : List Byte) : Option Memory :=
  if image.length = Config.imageBytes ∧ (Memory.ofImage image).contract then some (Memory.ofImage image) else none

end Sys2Proof.Machine
end

