-- ==== Sys2Proof/Machine/Ops.lean ====
section
/-! DEFINITION. The operations that the meanings share: taking the next request, giving a response, ending an operation.
There is no exception to take and none to return from: the block has no trap mechanism (60_exceptions.md R91, R96, R97). -/

namespace Sys2Proof.Machine

/-- The request that stands on the ports, and the state once it is taken (70_reset_and_hazards.md R112). -/
def nextRequest (s : State) : Option (ReqWord × State) :=
  match s.requests with
  | [] => none
  | w :: rest => some (w, { s with requests := rest })

/-- No request is presented: nothing happens and no response is recorded (log 1; 10_state.md R20, R105). -/
def idle (s : State) : Host.Outcome State Fault Refusal := .next s

/-- `result <- p`: the response of the request served last (00_scope.md R6, 70_reset_and_hazards.md R112). -/
def State.respond (s : State) (p : RespWord) : State := { s with responses := s.responses ++ [p] }

/-- `twos_16(z)` (00_scope.md R6, 30_encoding.md R38). Outside its domain the pattern is a free value (log 5). -/
def respPattern (z : Int) : RespWord :=
  if -32768 ≤ z ∧ z < 32768 then BitVec.ofInt 16 z else Config.twos16Outside z

/-- The end of an operation: its result goes out on the port, or a fault of 60_exceptions.md R92 leaves it without one. -/
def complete (r : Except Fault Int) (s : State) : Host.Outcome State Fault Refusal :=
  match r with
  | .ok z => .next (s.respond (respPattern z))
  | .error f => .fault f

end Sys2Proof.Machine
end

