-- ==== Sys2Proof/Machine/Sine.lean ====
section
/-! DEFINITION. The sine engine, stage by stage, and the operation SIN (42_sine_engine.md R60 to R68). All arithmetic
is over unbounded signed integers (D18). -/

namespace Sys2Proof.Machine

/-- The internal signals of one operation (10_state.md R19). They are no state. -/
structure SineSignals where
  interp : Nat
  index : Nat
  fwd : Bool
  neg : Bool
  idx : Nat
  x1 : Int
  x2 : Int
  d : Int
  p : Int
  approx : Int
  mag : Int
  sine : Int
  deriving DecidableEq, Repr

/-- `quadrant_folder`: the effective index (42_sine_engine.md R60). -/
def quadrantFolder (fwd : Bool) (index : Nat) : Nat := if fwd then index else Config.mirrorBase - index

/-- The interpolation product, multiplied before it is divided (42_sine_engine.md R64). -/
def interpProduct (d : Int) (interp : Nat) : Int := d * interp

/-- The interpolated delta: division by 256 truncating toward zero (42_sine_engine.md R64). -/
def interpDelta (p : Int) : Int := divTrunc p Config.interpDivisor

/-- The magnitude, from the lower entry upward or from the higher one downward (42_sine_engine.md R65). -/
def magnitude (fwd : Bool) (x1 x2 approx : Int) : Int := if fwd then x1 + approx else x2 - approx

/-- `quadrant_sign_logic`: exact negation in the lower half-circle (42_sine_engine.md R67). -/
def applySign (neg : Bool) (mag : Int) : Int := if neg then -mag else mag

/-- Steps 1 to 7 of 42_sine_engine.md R68 on the angle that enters the sine path; field extraction before the table
reads (60_exceptions.md R95). -/
def sineSignals (m : Memory) (a : Angle) : Except Fault SineSignals := do
  let interp ← interpOf a
  let index ← indexOf a
  let fwd := fwdFlag a
  let neg := negFlag a
  let idx := quadrantFolder fwd index
  let x1 ← lookup m idx
  let x2 ← lookup m (idx + 1)
  let d : Int := x2 - x1
  let p := interpProduct d interp
  let approx := interpDelta p
  let mag := magnitude fwd x1 x2 approx
  let sine := applySign neg mag
  return { interp, index, fwd, neg, idx, x1, x2, d, p, approx, mag, sine }

/-- The sine path: the signed result of step 7 (42_sine_engine.md R68). -/
def sinePath (m : Memory) (a : Angle) : Except Fault Int := (sineSignals m a).map SineSignals.sine

/-- `SIN angle` (42_sine_engine.md R68). -/
def execSin (angle : Angle) (s : State) : Host.Outcome State Fault Refusal := complete (sinePath s.rom angle) s

end Sys2Proof.Machine
end

