-- ==== Sys2Proof/Machine/Cosine.lean ====
section
/-! DEFINITION. The operation COS: the cosine adapter in front of the sine path (43_cosine_adapter.md R72, R74). -/

namespace Sys2Proof.Machine

/-- `COS angle` (43_cosine_adapter.md R74). -/
def execCos (angle : Angle) (s : State) : Host.Outcome State Fault Refusal :=
  complete (sinePath s.rom (cosShift angle)) s

end Sys2Proof.Machine
end

