-- ==== Sys2Proof/Machine/Step.lean ====
section
/-! DEFINITION. One step: the whole of one request (70_reset_and_hazards.md R111). -/

namespace Sys2Proof.Machine

/-- Take the request at the head of the stream, decode it and run it; with none presented, idle (log 1). -/
def step (s : State) : Host.Outcome State Fault Refusal :=
  match nextRequest s with
  | none => idle s
  | some (w, s') => exec (decode w) s'

/-- `s` with the request word `w` presented: it stands at the head of the request stream, in the place of the
request that stood there (log 1). Only a word's low `nbits` bits and the 17 lines of REQ17 are presented. -/
def State.withFetchWord (s : State) (nbits w : Nat) : State :=
  { s with requests := BitVec.ofNat 17 (w % 2 ^ nbits) :: s.requests.tail }

end Sys2Proof.Machine
end

