-- ==== Sys2Proof/Machine/Text.lean ====
section
/-! DEFINITION. The text form of a request and of an exchange (30_encoding.md R44, R45; log 7). -/

namespace Sys2Proof.Machine

/-- Why a line of text gives no request. -/
inductive TextError where
  /-- Only spaces and a comment. -/
  | noRequest
  /-- The first word is no spelling of an operation. -/
  | unknownMnemonic
  /-- The operand is missing or no unsigned literal. -/
  | notALiteral
  /-- The literal lies outside [0, 65535]. -/
  | operandTooLarge (n : Nat)
  deriving DecidableEq, Repr

/-- The value of a digit in base `base`. -/
def digitValue (base : Nat) (c : Char) : Option Nat :=
  let n := c.toNat
  let v := if 48 ≤ n ∧ n ≤ 57 then n - 48
    else if 97 ≤ n ∧ n ≤ 102 then n - 87
    else if 65 ≤ n ∧ n ≤ 70 then n - 55
    else base
  if v < base then some v else none

/-- The digits of a literal, most significant first, after the value `acc` of those already read. -/
def digitsValue (base : Nat) : Nat → List Char → Option Nat
  | acc, [] => some acc
  | acc, c :: cs =>
    match digitValue base c with
    | some v => digitsValue base (acc * base + v) cs
    | none => none

/-- An unsigned literal, decimal or hexadecimal with the prefix `0x` (30_encoding.md R44). -/
def literalValue : List Char → Option Nat
  | [] => none
  | '0' :: 'x' :: [] => none
  | '0' :: 'x' :: c :: cs => digitsValue 16 0 (c :: cs)
  | c :: cs => digitsValue 10 0 (c :: cs)

/-- The spellings of the two operations (30_encoding.md R44). -/
def mnemonicOf (cs : List Char) : Option Mnemonic :=
  if cs = ['S', 'I', 'N'] ∨ cs = ['s', 'i', 'n'] ∨ cs = ['s', 'i', 'n', 'e'] then some .sin
  else if cs = ['C', 'O', 'S'] ∨ cs = ['c', 'o', 's'] ∨ cs = ['c', 'o', 's', 'i', 'n', 'e'] then some .cos
  else none

/-- A line without its comment and the spaces before it. -/
def stripComment (cs : List Char) : List Char :=
  ((cs.takeWhile (· ≠ ';')).reverse.dropWhile (· = ' ')).reverse

/-- A line of text: a mnemonic, one space, one operand (30_encoding.md R44). A line that carries its response after `=>` is
written by `renderExchange` and not read back: it is `notALiteral` (DESIGN CHOICE, safe; log 7). -/
def parseLine (cs : List Char) : Except TextError Line :=
  match stripComment cs with
  | [] => .error .noRequest
  | c :: rest =>
    let line := c :: rest
    match mnemonicOf (line.takeWhile (· ≠ ' ')) with
    | none => .error .unknownMnemonic
    | some mn =>
      match literalValue ((line.dropWhile (· ≠ ' ')).drop 1) with
      | none => .error .notALiteral
      | some n => .ok ⟨mn, n⟩

/-- The instruction of a well-formed line. -/
def assembleLine (l : Line) : Except TextError Instr :=
  if l.wellFormed then
    .ok (match l.mnemonic with
      | .sin => .sin (BitVec.ofNat 16 l.operand)
      | .cos => .cos (BitVec.ofNat 16 l.operand))
  else .error (.operandTooLarge l.operand)

/-- The instruction that a line of text stands for. -/
def assemble (cs : List Char) : Except TextError Instr :=
  match parseLine cs with
  | .ok l => assembleLine l
  | .error e => .error e

/-- The decimal digits of `n`; `fuel` above `n` is enough. -/
def decimalDigits : Nat → Nat → List Char
  | 0, _ => []
  | fuel + 1, n => if n < 10 then [Nat.digitChar n] else decimalDigits fuel (n / 10) ++ [Nat.digitChar (n % 10)]

/-- A number in decimal, without leading zeros. -/
def decimal (n : Nat) : List Char := decimalDigits (n + 1) n

/-- A signed number in decimal. -/
def signedDecimal : Int → List Char
  | .ofNat n => decimal n
  | .negSucc n => '-' :: decimal (n + 1)

/-- A 16-bit pattern as `0x` and four hexadecimal digits. -/
def hexPattern (p : RespWord) : List Char :=
  '0' :: 'x' :: [Nat.digitChar (p.toNat / 4096 % 16), Nat.digitChar (p.toNat / 256 % 16),
    Nat.digitChar (p.toNat / 16 % 16), Nat.digitChar (p.toNat % 16)]

/-- A request in text. -/
def renderInstr : Instr → List Char
  | .sin a => ['S', 'I', 'N', ' '] ++ decimal a.toNat
  | .cos a => ['C', 'O', 'S', ' '] ++ decimal a.toNat

/-- A request and its response after `=>`, as a signed decimal and as a pattern (30_encoding.md R44). -/
def renderExchange (i : Instr) (p : RespWord) : List Char :=
  renderInstr i ++ [' ', '=', '>', ' '] ++ signedDecimal (RespWord.value p) ++ [' ', '('] ++ hexPattern p ++ [')']

end Sys2Proof.Machine
end

