-- ==== Sys2Proof/Safety.lean ====
section
/-! DEFINITION. The terms in which claims about the block are stated. -/

namespace Sys2Proof.Machine

/-- In state `s` the operation `i` completes: it answers the next state in which only one response has been added, and
that response denotes the integer `z`. The ROM and the pending requests stay as they were. -/
def Answers (s : State) (i : Instr) (z : Int) : Prop :=
  ∃ p : RespWord, exec i s = .next { rom := s.rom, requests := s.requests, responses := s.responses ++ [p] } ∧ p.toInt = z

/-- `F` is the block's sine in state `s`: SIN completes on each of the 65536 operands, and answers `F` of it. -/
def SineOf (s : State) (F : Nat → Int) : Prop := ∀ a, a < 65536 → Answers s (.sin (BitVec.ofNat 16 a)) (F a)

/-- `G` is the block's cosine in state `s`: COS completes on each of the 65536 operands, and answers `G` of it. -/
def CosineOf (s : State) (G : Nat → Int) : Prop := ∀ a, a < 65536 → Answers s (.cos (BitVec.ofNat 16 a)) (G a)

/-- The decimal column of 10_state.md R11. -/
def specTable : List Nat :=
  [0, 3212, 6393, 9512, 12539, 15446, 18204, 20787] ++
  [23170, 25329, 27245, 28898, 30273, 31356, 32137, 32609] ++ [32767]

/-- The packed image of 20_memory.md R24, as that rule prints it. -/
def specImage : List Byte :=
  [0x00, 0x00, 0x0c, 0x8c, 0x18, 0xf9, 0x25, 0x28, 0x30, 0xfb, 0x3c, 0x56, 0x47, 0x1c, 0x51, 0x33] ++
  [0x5a, 0x82, 0x62, 0xf1, 0x6a, 0x6d, 0x70, 0xe2, 0x76, 0x41, 0x7a, 0x7c, 0x7d, 0x89, 0x7f, 0x61, 0x7f, 0xff]

/-- The ROM holds the 17 values of 10_state.md R11: what must be true before the first operation
(70_reset_and_hazards.md R106). -/
def HoldsTable (m : Memory) : Prop := ∀ i, i < 17 → lookup m i = .ok (specTable.getD i 0)

/-- The ROM meets the generator's contract (10_state.md R12). Claims that need no more than this carry over to any table
of the kind (70_reset_and_hazards.md R107). -/
def MeetsContract (m : Memory) : Prop :=
  ∃ T : Nat → Nat, (∀ i, i < 17 → lookup m i = .ok (T i)) ∧ T 0 = 0 ∧ T 16 = 32767 ∧ ∀ i, i < 16 → T i ≤ T (i + 1)

/-- The invariant of a run: the ROM is in canonical form and holds the table, and no response is the pattern 0x8000
(30_encoding.md R38). -/
structure State.Inv (s : State) : Prop where
  canonical : s.rom.wf = true
  table : HoldsTable s.rom
  responses : ∀ p ∈ s.responses, p ≠ 0x8000#16

/-- The shifted angle of the source's literal two-branch cosine, in 16-bit wrap-around arithmetic (44_laws.md R89). It is
NOT part of the block (90_conflicts.md C6); one claim compares the two. -/
def cosLitAngle (a : Nat) : Nat := if a > 12288 then (53248 + 65536 - a) % 65536 else (a + 4096) % 65536

end Sys2Proof.Machine
end

