-- ==== Sys2Proof/Certificates/Slice0/Obligations.lean ====
section
/-! DEFINITION. The statements about the block, from the numbered rules of spec/. A docstring with "(derived)" at its
end names a rule or a sentence that the spec itself marks as derived from its other rules, or a choice of the model's. -/

open Sys2Proof Sys2Proof.Machine

/-! ### Encoding -/

/-- 30_encoding.md R46: decoding, encoding, and that each undoes the other (derived). -/
def Obligations.DecodeAndEncodeAreInverse : Prop :=
  (∀ w : ReqWord, decode w =
    if w.toNat / 65536 % 2 = 0 then .sin (BitVec.ofNat 16 (w.toNat % 65536)) else .cos (BitVec.ofNat 16 (w.toNat % 65536))) ∧
  (∀ i : Instr, (encode i).toNat = i.op.toNat * 65536 + i.angle.toNat) ∧
  (∀ i : Instr, decode (encode i) = i) ∧
  (∀ w : ReqWord, encode (decode w) = w)

/-- 30_encoding.md R40. -/
def Obligations.OpcodeMapMatchAndMask : Prop :=
  (∀ w : ReqWord, (w &&& 0x10000#17 = 0x00000#17 ↔ ∃ a, decode w = .sin a) ∧
    (w &&& 0x10000#17 = 0x10000#17 ↔ ∃ a, decode w = .cos a)) ∧
  (∀ a : Angle, (Instr.sin a).op = 0#1 ∧ (encode (.sin a)).toNat = a.toNat ∧
    (Instr.cos a).op = 1#1 ∧ (encode (.cos a)).toNat = 65536 + a.toNat)

/-- Words written out from the encodings of 95_test_vectors.md section 3. -/
def Obligations.SpecWordsDecodeToTheirRequests : Prop :=
  decode 0b00000111101111111#17 = .sin 3967 ∧ decode 0b01111111111111111#17 = .sin 65535 ∧
  decode 0b01100001010111100#17 = .sin 49852 ∧ decode 0b10011101010011000#17 = .cos 15000 ∧
  decode 0b10000000000000000#17 = .cos 0 ∧ decode 0b11111111111111111#17 = .cos 65535

/-- 30_encoding.md R40 and R46 on numbers: SIN a is the number a, COS a is 65536 + a. That a longer number is rejected by
name is the model's reading of R43, that every request is 17 bits (log 8). -/
def Obligations.NumbersOfSeventeenBitsDecode : Prop :=
  ∀ w : Nat,
    (w < 65536 → decodeNat w = .ok (.sin (BitVec.ofNat 16 w))) ∧
    (65536 ≤ w → w < 131072 → decodeNat w = .ok (.cos (BitVec.ofNat 16 (w - 65536)))) ∧
    (131072 ≤ w → decodeNat w = .error (.notARequestWord w))

/-- 30_encoding.md section 6 (R44): the written form of a request reads back, with a comment after it and with a
hexadecimal operand too, and a literal above 65535 is refused. The spaces before the comment are log 7's choice. -/
def Obligations.TextFormReadsBack : Prop :=
  (∀ i : Instr, assemble (renderInstr i) = .ok i) ∧
  (∀ (i : Instr) (k : Nat) (comment : List Char),
    assemble (renderInstr i ++ List.replicate k ' ' ++ ';' :: comment) = .ok i) ∧
  (∀ a : Angle, assemble (['S', 'I', 'N', ' '] ++ hexPattern a) = .ok (.sin a) ∧
    assemble (['C', 'O', 'S', ' '] ++ hexPattern a) = .ok (.cos a)) ∧
  (∀ n : Nat, 65536 ≤ n → assemble (['S', 'I', 'N', ' '] ++ decimal n) = .error (.operandTooLarge n))

/-! ### The step and the run -/

/-- One request is one step (70_reset_and_hazards.md R111): the word at the head of the stream is decoded and run. With
no request presented nothing changes (the model's choice, log 1). -/
def Obligations.StepRunsTheDecodedRequest : Prop :=
  (∀ (s : State) (w : ReqWord) (rest : List ReqWord), s.requests = w :: rest →
    step s = exec (decode w) { rom := s.rom, requests := rest, responses := s.responses }) ∧
  (∀ (s : State) (i : Instr) (rest : List ReqWord), s.requests = encode i :: rest →
    step s = exec i { rom := s.rom, requests := rest, responses := s.responses }) ∧
  (∀ s : State, s.requests = [] → step s = .next s)

/-- 60_exceptions.md R91: no request word raises anything, in any state. That this holds over a ROM that breaks the contract
too, and that a step with no request presented stops nowhere, is the model's choice (logs 5 and 1) (derived). -/
def Obligations.EveryRequestWordIsAnswered : Prop :=
  ∀ s : State,
    (∀ (w : ReqWord) (rest : List ReqWord), s.requests = w :: rest →
      ∃ p : RespWord, step s = .next { rom := s.rom, requests := rest, responses := s.responses ++ [p] }) ∧
    (∀ f : Fault, step s ≠ .fault f) ∧ (∀ r : Refusal, step s ≠ .refused r)

/-- 70_reset_and_hazards.md R109 and R112: a run answers its request stream, one response per request, in order, each
the response that its request gets alone (10_state.md R20); the ROM at the end is the ROM at the start. Over a ROM that breaks the
contract this is the model's choice (log 5) (derived). -/
def Obligations.RunAnswersTheRequestStream : Prop :=
  ∀ s : State, ∃ F : ReqWord → RespWord,
    (∀ (t : State) (w : ReqWord), t.rom = s.rom →
      exec (decode w) t = .next { rom := t.rom, requests := t.requests, responses := t.responses ++ [F w] }) ∧
    (∀ n : Nat, n ≤ s.requests.length → core.run n s = .next
      { rom := s.rom, requests := s.requests.drop n, responses := s.responses ++ (s.requests.take n).map F : State })

/-- 10_state.md R20: a response depends on the request and on the ROM's entries, and on nothing else of the state.
Over a ROM that breaks the contract this is the model's choice: the operations complete there, and the free value is a
function of the result alone (log 5) (derived). -/
def Obligations.ResponseDependsOnRequestAndRomOnly : Prop :=
  ∀ (s t : State) (i : Instr), (∀ k, k < 17 → lookup s.rom k = lookup t.rom k) →
    ∃ z : Int, Answers s i z ∧ Answers t i z

/-- What an operation leaves unchanged: every read of the ROM and every pending request; it adds one response. -/
def Obligations.FrameOfSinAndCos : Prop :=
  ∀ (s t : State) (i : Instr), exec i s = .next t →
    t.rom = s.rom ∧ (∀ addr n, memRead t.rom addr n = memRead s.rom addr n) ∧ t.requests = s.requests ∧
    ∃ p : RespWord, t.responses = s.responses ++ [p]

/-- 20_memory.md R28: no step and no run changes the ROM. -/
def Obligations.RomIsNeverWritten : Prop :=
  (∀ s t : State, step s = .next t → t.rom = s.rom) ∧
  (∀ (n : Nat) (s t : State), core.run n s = .next t →
    t.rom = s.rom ∧ ∀ addr k, memRead t.rom addr k = memRead s.rom addr k)

/-- The invariant of a run holds right after reset. The table is 10_state.md R21's; that no response stands there is the
model's choice (log 1), and so is the canonical form (log 2) (derived). -/
def Obligations.InvariantHoldsAtReset : Prop := State.reset.Inv

/-- Every step from a state that meets the invariant gives a state that meets it: the ROM keeps its canonical form and
its table, and the pattern 0x8000 is never given (20_memory.md R28, 30_encoding.md R38). The canonical form and the list of
responses are the model's choice (logs 2 and 1) (derived). -/
def Obligations.StepKeepsTheInvariant : Prop :=
  ∀ s t : State, s.Inv → step s = .next t → t.Inv

/-! ### The table -/

/-- 10_state.md R11: the 17 entries, the sentinel last. -/
def Obligations.RomAfterResetHoldsTheTable : Prop :=
  HoldsTable State.reset.rom ∧ lookup State.reset.rom 16 = .ok 0x7fff

/-- 10_state.md R12 and the last column of R11: the ROM after reset meets the generator's contract, strictly increasing, the
smallest difference 158 and the largest 3212, and so does every ROM that holds the table. The check made at build time
accepts a ROM exactly when its lookups meet the contract (derived). -/
def Obligations.TableMeetsTheContract : Prop :=
  (MeetsContract State.reset.rom ∧ ∀ i, i < 16 → ∃ u v : Nat,
    lookup State.reset.rom i = .ok u ∧ lookup State.reset.rom (i + 1) = .ok v ∧ v < 65536 ∧
    u + 158 ≤ v ∧ v ≤ u + 3212 ∧ (i = 0 → v = u + 3212) ∧ (i = 15 → v = u + 158)) ∧
  (∀ m : Memory, m.contract = true ↔ MeetsContract m) ∧
  (∀ s : State, HoldsTable s.rom → s.rom.contract = true ∧ MeetsContract s.rom ∧
    ∀ i u v, i < 16 → lookup s.rom i = .ok u → lookup s.rom (i + 1) = .ok v →
      v < 65536 ∧ u + 158 ≤ v ∧ v ≤ u + 3212 ∧ (i = 0 → v = u + 3212) ∧ (i = 15 → v = u + 158))

/-- 20_memory.md R24: byte 2i holds the high byte of entry i and byte 2i + 1 the low byte; the image after reset. -/
def Obligations.PackedImageLayout : Prop :=
  (∀ (m : Memory) (i t : Nat), i < 17 → lookup m i = .ok t →
    memRead m (2 * i) 1 = .ok (t / 256) ∧ memRead m (2 * i + 1) 1 = .ok (t % 256)) ∧
  (∀ k, k < 34 → memRead State.reset.rom k 1 = .ok (specImage.getD k 0).toNat)

/-- 20_memory.md R25: the read primitive is the big-endian combination of the bytes it reads, and a word read is the
read of two bytes at an even address. -/
def Obligations.MemReadIsBigEndian : Prop :=
  (∀ (m : Memory) (addr n : Nat), 1 ≤ n → addr + n ≤ 34 → ∃ B : Nat → Nat,
    (∀ k, k < n → memRead m (addr + k) 1 = .ok (B k)) ∧
    memRead m addr n = .ok ((List.range n).map fun k => B k * 256 ^ (n - 1 - k)).sum) ∧
  (∀ (m : Memory) (i : Nat), i ≤ 16 → lookup m i = memRead m (2 * i) 2)

/-- Outside the domain of 20_memory.md R25 the read primitive faults (the spec names no fault there: the model's choice,
log 3). -/
def Obligations.MemReadOutsideTheImageFaults : Prop :=
  ∀ (m : Memory) (addr n : Nat), n = 0 ∨ 34 < addr + n → memRead m addr n = .error (.memReadOutOfImage addr n)

/-- 41_sine_table_rom.md R56 and 20_memory.md R32: `lookup` on the 17 entries and above them. -/
def Obligations.LookupOnAndAboveTheTable : Prop :=
  ∀ (m : Memory) (index : Nat),
    (index ≤ 16 → ∃ v : Nat, lookup m index = .ok v ∧ memRead m (2 * index) 2 = .ok v ∧ v < 65536 ∧
      (MeetsContract m → v ≤ 32767)) ∧
    (16 < index → lookup m index = .error (.romIndexOutOfRange index))

/-- 70_reset_and_hazards.md R107: a ROM is built from an image exactly when the checks hold; then it reads back as the
image and meets the contract; that it is in canonical form is the model's choice (log 2). The image of
20_memory.md R24 gives the ROM after reset. -/
def Obligations.RomIsBuiltFromCheckedImages : Prop :=
  (∀ image : List Byte, (romOfImage image).isSome = true ↔
    image.length = 34 ∧
    ∃ T : Nat → Nat, (∀ i, i < 17 → T i = (image.getD (2 * i) 0).toNat * 256 + (image.getD (2 * i + 1) 0).toNat) ∧
      T 0 = 0 ∧ T 16 = 32767 ∧ ∀ i, i < 16 → T i ≤ T (i + 1)) ∧
  (∀ (image : List Byte) (m : Memory), romOfImage image = some m →
    m.wf = true ∧ MeetsContract m ∧ ∀ k, k < 34 → memRead m k 1 = .ok (image.getD k 0).toNat) ∧
  romOfImage specImage = some State.reset.rom

/-- The canonical form is canonical: two memories in it that read alike are the same list (log 2). -/
def Obligations.CanonicalMemoriesThatReadAlikeAreEqual : Prop :=
  ∀ m m' : Memory, m.wf = true → m'.wf = true → (∀ k, k < 34 → memRead m k 1 = memRead m' k 1) → m = m'

/-! ### The angle -/

/-- 40_angle_decomposer.md R48, in the domain of R49: shift, then mask; the `w` bits from bit `o` up, and nothing else. -/
def Obligations.ExtractBitsTakesItsField : Prop :=
  ∀ (v : Angle) (w o : Nat), w + o ≤ 16 → ∃ x : Nat, extractBits v w o = .ok x ∧
    x = (v.toNat / 2 ^ o) &&& (2 ^ w - 1) ∧ x ≤ 2 ^ w - 1 ∧ x = (v.extractLsb' o w).toNat ∧
    ∀ k, x.testBit k = (decide (k < w) && v.getLsbD (o + k))

/-- 40_angle_decomposer.md R49 and R50: outside its domain `extractBits` is a fault and no value; the block's two callers
are inside it; shift and mask are division and remainder (derived). -/
def Obligations.ExtractBitsDomainAndForms : Prop :=
  (∀ (v : Angle) (w o : Nat), 16 < w + o → extractBits v w o = .error (.extractBitsOutOfRange w o)) ∧
  (∀ v : Angle, interpOf v = extractBits v 8 0 ∧ indexOf v = extractBits v 4 8) ∧
  (∀ (v : Angle) (w o : Nat), w + o ≤ 16 → extractBits v w o = .ok (v.toNat / 2 ^ o % 2 ^ w) ∧
    (v.toNat >>> o) &&& (2 ^ w - 1) = v.toNat / 2 ^ o % 2 ^ w)

/-- 40_angle_decomposer.md R51. -/
def Obligations.FractionAndIndexOfAnAngle : Prop :=
  ∀ a : Angle, interpOf a = .ok (a &&& 0x00FF).toNat ∧ indexOf a = .ok ((a >>> 8) &&& 0x000F).toNat ∧
    (a &&& 0x00FF).toNat = a.toNat % 256 ∧ ((a >>> 8) &&& 0x000F).toNat = a.toNat / 256 % 16

/-- 40_angle_decomposer.md R52. -/
def Obligations.QuadrantFlagsOfAnAngle : Prop :=
  ∀ a : Angle,
    (fwdFlag a = true ↔ a &&& 0x1000 = 0) ∧ (fwdFlag a = true ↔ a.getLsbD 12 = false) ∧
    (negFlag a = true ↔ a &&& 0x2000 ≠ 0) ∧ (negFlag a = true ↔ a.getLsbD 13 = true)

/-- 40_angle_decomposer.md R53: flags, reading direction and sign in each quadrant, whatever the ROM holds (derived). -/
def Obligations.FourQuadrants : Prop :=
  ∀ (m : Memory) (a : Angle), ∃ σ : SineSignals, sineSignals m a = .ok σ ∧
    (a.toNat % 16384 ≤ 4095 → σ.fwd = true ∧ σ.neg = false ∧ σ.idx = σ.index ∧ σ.sine = σ.mag) ∧
    (4096 ≤ a.toNat % 16384 → a.toNat % 16384 ≤ 8191 →
      σ.fwd = false ∧ σ.neg = false ∧ σ.idx = 15 - σ.index ∧ σ.sine = σ.mag) ∧
    (8192 ≤ a.toNat % 16384 → a.toNat % 16384 ≤ 12287 →
      σ.fwd = true ∧ σ.neg = true ∧ σ.idx = σ.index ∧ σ.sine = -σ.mag) ∧
    (12288 ≤ a.toNat % 16384 → σ.fwd = false ∧ σ.neg = true ∧ σ.idx = 15 - σ.index ∧ σ.sine = -σ.mag)

/-- 40_angle_decomposer.md R54: bits 15 and 14 reach no internal signal (derived). -/
def Obligations.HighAngleBitsAreIgnored : Prop :=
  ∀ (m : Memory) (a : Angle), sineSignals m a = sineSignals m (BitVec.ofNat 16 (a.toNat % 16384))

/-- 40_angle_decomposer.md R55: the four parts give back the low 14 bits, and determine nothing more (derived). -/
def Obligations.AngleReassemblesFromItsParts : Prop :=
  (∀ a : Angle, ∃ interp index qh ql : Nat, interpOf a = .ok interp ∧ indexOf a = .ok index ∧
    (qh = if negFlag a then 1 else 0) ∧ (ql = if fwdFlag a then 0 else 1) ∧
    a.toNat % 16384 = qh * 8192 + ql * 4096 + index * 256 + interp) ∧
  (∀ a b : Angle, (interpOf a = interpOf b ∧ indexOf a = indexOf b ∧ fwdFlag a = fwdFlag b ∧ negFlag a = negFlag b) ↔
    a.toNat % 16384 = b.toNat % 16384)

/-! ### The sine engine -/

/-- 42_sine_engine.md R60, R61 and R62: the effective index and the operand fetch, whatever the ROM holds (derived). -/
def Obligations.EffectiveIndexStaysInTheTable : Prop :=
  (∀ (m : Memory) (a : Angle), ∃ σ : SineSignals, sineSignals m a = .ok σ ∧
    σ.index ≤ 15 ∧ σ.idx = (if σ.fwd then σ.index else 15 - σ.index) ∧ σ.idx ≤ 15 ∧ 1 ≤ σ.idx + 1 ∧ σ.idx + 1 ≤ 16 ∧
    (∃ u v : Nat, lookup m σ.idx = .ok u ∧ lookup m (σ.idx + 1) = .ok v ∧ σ.x1 = u ∧ σ.x2 = v) ∧
    (HoldsTable m → σ.x1 < σ.x2)) ∧
  (∀ index : BitVec 4, 15 - index.toNat = (~~~index).toNat) ∧
  (∀ (m : Memory) (k : Nat), k ≤ 15 → ∃ (a : Angle) (σ : SineSignals), sineSignals m a = .ok σ ∧ σ.idx = k)

/-- 41_sine_table_rom.md R59: the sentinel is read exactly in the last segment and its mirror (derived). -/
def Obligations.SentinelIsReadInTheLastSegment : Prop :=
  ∀ (m : Memory) (a : Angle), ∃ σ : SineSignals, sineSignals m a = .ok σ ∧
    (σ.idx = 15 ↔ (σ.fwd = true ∧ σ.index = 15) ∨ (σ.fwd = false ∧ σ.index = 0)) ∧
    (σ.fwd = true ∧ σ.index = 15 ↔
      (3840 ≤ a.toNat % 16384 ∧ a.toNat % 16384 ≤ 4095) ∨ (12032 ≤ a.toNat % 16384 ∧ a.toNat % 16384 ≤ 12287)) ∧
    (σ.fwd = false ∧ σ.index = 0 ↔
      (4096 ≤ a.toNat % 16384 ∧ a.toNat % 16384 ≤ 4351) ∨ (12288 ≤ a.toNat % 16384 ∧ a.toNat % 16384 ≤ 12543))

/-- 42_sine_engine.md R63 and R64: signed difference, exact product, division by 256 truncating toward zero, over any
table; over a table that meets the contract truncation, floor and shift agree (derived). -/
def Obligations.SignedDifferenceAndTruncatingDivision : Prop :=
  ∀ (m : Memory) (a : Angle), ∃ σ : SineSignals, sineSignals m a = .ok σ ∧
    σ.d = σ.x2 - σ.x1 ∧ σ.p = σ.d * σ.interp ∧ σ.approx = σ.p.sign * (σ.p.natAbs / 256 : Nat) ∧
    (MeetsContract m → 0 ≤ σ.d ∧ 0 ≤ σ.p ∧ σ.approx = σ.p / 256 ∧ σ.approx = σ.p >>> (8 : Nat)) ∧
    (HoldsTable m → 158 ≤ σ.d ∧ σ.d ≤ 3212)

/-- 42_sine_engine.md R65, R66 and R67: magnitude, bounds and sign over the table of 10_state.md R11 (derived). -/
def Obligations.BoundsOfTheInternalSignals : Prop :=
  ∀ (m : Memory) (a : Angle), HoldsTable m → ∃ σ : SineSignals, sineSignals m a = .ok σ ∧
    σ.mag = (if σ.fwd then σ.x1 + σ.approx else σ.x2 - σ.approx) ∧ σ.sine = (if σ.neg then -σ.mag else σ.mag) ∧
    (σ.mag = 0 → σ.sine = 0 ∧ respPattern σ.sine = 0x0000#16) ∧
    158 ≤ σ.d ∧ σ.d ≤ 3212 ∧ 0 ≤ σ.p ∧ σ.p ≤ 819060 ∧ 0 ≤ σ.approx ∧ σ.approx ≤ 3199 ∧ σ.approx ≤ σ.d - 1 ∧
    (σ.fwd = true → σ.x1 ≤ σ.mag ∧ σ.mag ≤ σ.x2 - 1) ∧ (σ.fwd = false → σ.x1 + 1 ≤ σ.mag ∧ σ.mag ≤ σ.x2) ∧
    0 ≤ σ.x1 ∧ σ.x1 ≤ 32609 ∧ 3212 ≤ σ.x2 ∧ σ.x2 ≤ 32767 ∧
    0 ≤ σ.mag ∧ σ.mag ≤ 32767 ∧ -32767 ≤ σ.sine ∧ σ.sine ≤ 32767

/-- 42_sine_engine.md R68: SIN, step by step, over any table that meets the contract. -/
def Obligations.SinExecutesItsPseudocode : Prop :=
  ∀ (s : State) (T : Nat → Nat) (angle : Angle), (∀ i, i < 17 → lookup s.rom i = .ok (T i)) → T 0 = 0 → T 16 = 32767 →
    (∀ i, i < 16 → T i ≤ T (i + 1)) →
    let interp := angle.toNat % 256
    let index := angle.toNat / 256 % 16
    let fwd := angle.getLsbD 12 == false
    let neg := angle.getLsbD 13 == true
    let idx := if fwd then index else 15 - index
    let x1 : Int := T idx
    let x2 : Int := T (idx + 1)
    let d := x2 - x1
    let approx := Int.tdiv (d * interp) 256
    let mag := if fwd then x1 + approx else x2 - approx
    let sine := if neg then -mag else mag
    exec (.sin angle) s =
      .next { rom := s.rom, requests := s.requests, responses := s.responses ++ [BitVec.ofInt 16 sine] }

/-- Whatever the ROM holds: a result that has a 16-bit pattern goes out as that pattern (00_scope.md R6). Of a result
outside the range nothing is said (log 5). -/
def Obligations.ResponseIsThePatternOfTheResult : Prop :=
  ∀ (s : State) (a : Angle) (z : Int), sinePath s.rom a = .ok z → -32768 ≤ z → z < 32768 →
    exec (.sin a) s = .next { rom := s.rom, requests := s.requests, responses := s.responses ++ [BitVec.ofInt 16 z] } ∧
    ∀ b : Angle, cosShift b = a →
      exec (.cos b) s = .next { rom := s.rom, requests := s.requests, responses := s.responses ++ [BitVec.ofInt 16 z] }

/-- 42_sine_engine.md R69 and 43_cosine_adapter.md R76: both operations complete in every state, on every operand, and
with a table that meets the contract the result is in range. That they complete over any other table is the model's choice
(log 5) (derived). -/
def Obligations.SinAndCosAreTotal : Prop :=
  ∀ (s : State) (a : Angle),
    (∃ p, exec (.sin a) s = .next { rom := s.rom, requests := s.requests, responses := s.responses ++ [p] }) ∧
    (∃ p, exec (.cos a) s = .next { rom := s.rom, requests := s.requests, responses := s.responses ++ [p] }) ∧
    (cosShift a).toNat ≤ 16383 ∧
    (MeetsContract s.rom → ∃ y z : Int, Answers s (.sin a) y ∧ Answers s (.cos a) z ∧
      -32767 ≤ y ∧ y ≤ 32767 ∧ -32767 ≤ z ∧ z ≤ 32767)

/-- 42_sine_engine.md R70: the closed forms, over any table that meets the contract (derived). -/
def Obligations.ClosedFormsOfSine : Prop :=
  ∀ (s : State) (T : Nat → Nat) (angle : Angle), (∀ i, i < 17 → lookup s.rom i = .ok (T i)) → T 0 = 0 → T 16 = 32767 →
    (∀ i, i < 16 → T i ≤ T (i + 1)) →
    let a14 := angle.toNat % 16384
    let f := a14 % 256
    let i := a14 / 256 % 16
    let D := fun j => T (j + 1) - T j
    let q0 : Int := T i + (D i * f / 256 : Nat)
    let q1 : Int := T (16 - i) - (D (15 - i) * f / 256 : Nat)
    (a14 ≤ 4095 → Answers s (.sin angle) q0) ∧
    (4096 ≤ a14 → a14 ≤ 8191 → Answers s (.sin angle) q1) ∧
    (8192 ≤ a14 → a14 ≤ 12287 → Answers s (.sin angle) (-q0)) ∧
    (12288 ≤ a14 → Answers s (.sin angle) (-q1)) ∧
    q1 = T (15 - i) + ((D (15 - i) * (256 - f) + 255) / 256 : Nat)

/-! ### The cosine adapter -/

/-- 43_cosine_adapter.md R72 (derived). -/
def Obligations.CosineShiftsByOneQuadrant : Prop :=
  ∀ a : Angle, (cosShift a).toNat = (a.toNat + 4096) % 16384 ∧ (cosShift a).toNat ≤ 16383 ∧
    (cosShift a).extractLsb' 12 2 = a.extractLsb' 12 2 + 1 ∧ (cosShift a).extractLsb' 0 12 = a.extractLsb' 0 12 ∧
    (cosShift a).extractLsb' 14 2 = 0 ∧ interpOf (cosShift a) = interpOf a ∧ indexOf (cosShift a) = indexOf a

/-- 43_cosine_adapter.md R73: how the two-branch form of the source relates to the shift: the else branch agrees, the
stated intent of the first branch agrees, its literal formula is congruent to 4096 - angle (derived). -/
def Obligations.TwoBranchFormOfTheCosineShift : Prop :=
  (∀ a : Angle, (a.toNat ≤ 12287 → (cosShift a).toNat = a.toNat + 4096) ∧
    (12288 < a.toNat → a.toNat ≤ 16383 → (cosShift a).toNat = a.toNat - 12288) ∧
    (12288 < a.toNat → ((cosLitAngle a.toNat : Int) - (4096 - a.toNat)) % 16384 = 0)) ∧
  (∀ s : State, exec (.cos 12288) s = exec (.sin 16384) s ∧ exec (.sin 16384) s = exec (.sin 0) s)

/-- 43_cosine_adapter.md R74: COS runs SIN on the shifted angle, and completes. That it completes over a ROM that breaks the
contract too is the model's choice (log 5) (derived). -/
def Obligations.CosExecutesSinOfTheShiftedAngle : Prop :=
  ∀ (s : State) (angle : Angle),
    exec (.cos angle) s = exec (.sin (BitVec.ofNat 16 ((angle.toNat + 4096) % 16384))) s ∧
    ∃ p, exec (.cos angle) s = .next { rom := s.rom, requests := s.requests, responses := s.responses ++ [p] }

/-- 30_encoding.md R38: the response word of the sine path's result, `b` being the angle that enters it (the operand for
SIN, the shifted angle for COS), and its 256-bit reading (derived). -/
def Obligations.ResponseWordFormat : Prop :=
  ∀ (s : State) (i : Instr) (a b : Angle), MeetsContract s.rom → (i = .sin a ∧ b = a) ∨ (i = .cos a ∧ b = cosShift a) →
    ∃ (z : Int) (p : RespWord), sinePath s.rom b = .ok z ∧
    exec i s = .next { rom := s.rom, requests := s.requests, responses := s.responses ++ [p] } ∧
    p = BitVec.ofInt 16 z ∧ p.toInt = z ∧ p ≠ 0x8000#16 ∧ (RespWord.int256 p).toInt = z ∧
    ∀ k, 16 ≤ k → k < 256 → (RespWord.int256 p).getLsbD k = p.getLsbD 15

/-! ### The laws of 44_laws.md -/

/-- 44_laws.md R77. -/
def Obligations.RangeOfResults : Prop :=
  ∀ s : State, MeetsContract s.rom → ∃ F G : Nat → Int, SineOf s F ∧ CosineOf s G ∧
    (∀ a, a < 65536 → -32767 ≤ F a ∧ F a ≤ 32767 ∧ -32767 ≤ G a ∧ G a ≤ 32767) ∧ F 4096 = 32767 ∧ F 12288 = -32767 ∧
    ∀ (i : Instr) (t : State) (p : RespWord), exec i s = .next t → t.responses = s.responses ++ [p] → p ≠ 0x8000#16

/-- 44_laws.md R78 and R79. -/
def Obligations.QuadrantBoundaries : Prop :=
  ∀ s : State, MeetsContract s.rom →
    Answers s (.sin 0) 0 ∧ Answers s (.sin 4096) 32767 ∧ Answers s (.sin 8192) 0 ∧ Answers s (.sin 12288) (-32767) ∧
    Answers s (.cos 0) 32767 ∧ Answers s (.cos 4096) 0 ∧ Answers s (.cos 8192) (-32767) ∧ Answers s (.cos 12288) 0

/-- 44_laws.md R80: exact in every state, whatever the ROM holds; over a ROM that breaks the contract this is the model's
choice (log 5) (derived). -/
def Obligations.CosineIsShiftedSine : Prop :=
  ∀ s : State, ∃ F G : Nat → Int, SineOf s F ∧ CosineOf s G ∧
    ∀ a, a < 65536 → G a = F ((a + 4096) % 16384) ∧ G a = F ((a + 4096) % 65536)

/-- 44_laws.md R81, with its counts. -/
def Obligations.OddSymmetryWithinOneUnit : Prop :=
  ∀ s : State, HoldsTable s.rom → ∃ F : Nat → Int, SineOf s F ∧
    (∀ a, 1 ≤ a → a ≤ 16383 → -1 ≤ F a + F (16384 - a) ∧ F a + F (16384 - a) ≤ 1) ∧
    (List.range' 1 16383).countP (fun a => F a + F (16384 - a) == 0) = 123 ∧
    (List.range' 1 16383).countP (fun a => F a + F (16384 - a) == 1) = 8130 ∧
    (List.range' 1 16383).countP (fun a => F a + F (16384 - a) == -1) = 8130 ∧
    (∀ k, 1 ≤ k → k ≤ 63 → F (256 * k) + F (16384 - 256 * k) = 0) ∧ F 1 = 12 ∧ F 16383 = -13

/-- 44_laws.md R82, with its counts (derived). -/
def Obligations.SineIsMonotoneInEachQuadrant : Prop :=
  ∀ s : State, HoldsTable s.rom → ∃ F : Nat → Int, SineOf s F ∧
    (∀ a, a < 4096 → F a ≤ F (a + 1)) ∧ (∀ a, 4096 ≤ a → a < 8192 → F (a + 1) ≤ F a) ∧
    (∀ a, 8192 ≤ a → a < 12288 → F (a + 1) ≤ F a) ∧ (∀ a, 12288 ≤ a → a < 16383 → F a ≤ F (a + 1)) ∧
    F 16383 = -13 ∧ F 0 = 0 ∧ (List.range 4096).countP (fun a => F (a + 1) == F a) = 98 ∧
    F 3840 = 32609 ∧ F 3841 = 32609 ∧ F 4096 = F 4097 ∧
    (∀ a, a < 16383 → -13 ≤ F (a + 1) - F a ∧ F (a + 1) - F a ≤ 13)

/-- 70_reset_and_hazards.md R107: the monotonicity of R82 needs the contract only (derived). -/
def Obligations.MonotonicityNeedsOnlyTheContract : Prop :=
  ∀ s : State, MeetsContract s.rom → ∃ F : Nat → Int, SineOf s F ∧
    (∀ a b, a ≤ b → b ≤ 4096 → F a ≤ F b) ∧ (∀ a b, 4096 ≤ a → a ≤ b → b ≤ 12288 → F b ≤ F a) ∧
    (∀ a b, 12288 ≤ a → a ≤ b → b ≤ 16384 → F a ≤ F b)

/-- 44_laws.md R83, all round the circle, over any table that meets the contract (derived). -/
def Obligations.ExactAtTheSamplePoints : Prop :=
  ∀ (s : State) (T : Nat → Nat), (∀ i, i < 17 → lookup s.rom i = .ok (T i)) → T 0 = 0 → T 16 = 32767 →
    (∀ i, i < 16 → T i ≤ T (i + 1)) → ∃ F : Nat → Int, SineOf s F ∧
      ∀ k, k ≤ 16 → F (256 * k) = T k ∧ F (4096 + 256 * k) = T (16 - k) ∧
        F (8192 + 256 * k) = -(T k : Int) ∧ F (12288 + 256 * k) = -(T (16 - k) : Int)

/-- 44_laws.md R84: the document's concrete scenarios. -/
def Obligations.ConcreteScenarios : Prop :=
  ∀ s : State, HoldsTable s.rom →
    Answers s (.sin 0) 0 ∧ Answers s (.sin 4096) 32767 ∧ Answers s (.sin 2048) 23170 ∧ Answers s (.cos 0) 32767 ∧
    Answers s (.cos 2048) 23170

/-- 44_laws.md R85 and 43_cosine_adapter.md R75, in every state, whatever the ROM holds; over a ROM that
breaks the contract this is the model's choice (log 5) (derived). -/
def Obligations.PeriodicInTheIgnoredBits : Prop :=
  ∀ s : State, ∃ F G : Nat → Int, SineOf s F ∧ CosineOf s G ∧
    ∀ a, a < 65536 → F a = F (a % 16384) ∧ G a = G (a % 16384)

/-- 44_laws.md R86, over any table that meets the contract (derived). -/
def Obligations.HalfTurnAntisymmetry : Prop :=
  ∀ s : State, MeetsContract s.rom → ∃ F G : Nat → Int, SineOf s F ∧ CosineOf s G ∧
    (∀ a, a < 65536 → F ((a + 8192) % 16384) = -F a ∧ G ((a + 8192) % 16384) = -G a) ∧
    ((List.range 16384).map F).sum = 0 ∧ ((List.range 16384).map G).sum = 0

/-- 44_laws.md R87, with its counts (derived). -/
def Obligations.MirrorSymmetryWithinOneUnit : Prop :=
  ∀ s : State, HoldsTable s.rom → ∃ F : Nat → Int, SineOf s F ∧
    (∀ k, k ≤ 4096 → F (4096 + k) - F (4096 - k) = 0 ∨ F (4096 + k) - F (4096 - k) = 1) ∧
    (List.range 4097).countP (fun k => F (4096 + k) - F (4096 - k) == 0) = 32 ∧
    (List.range 4097).countP (fun k => F (4096 + k) - F (4096 - k) == 1) = 4065 ∧
    (∀ j, j ≤ 16 → F (4096 + 256 * j) = F (4096 - 256 * j))

/-- 44_laws.md R88: the last table segment (derived). -/
def Obligations.LastTableSegment : Prop :=
  ∀ s : State, HoldsTable s.rom → ∃ F : Nat → Int, SineOf s F ∧
    (∀ a, 3840 ≤ a → a ≤ 4095 → F a = ((32609 + 158 * (a - 3840) / 256 : Nat) : Int) ∧ F a < 32767) ∧
    F 3840 = 32609 ∧ F 4095 = 32766 ∧ F 4096 = 32767

/-- 44_laws.md R89: the literal two-branch cosine is another function (by enumeration; derived). It is no part of the
block. -/
def Obligations.LiteralCosineDiffersFromCosine : Prop :=
  ∀ s : State, HoldsTable s.rom → ∃ F G : Nat → Int, SineOf s F ∧ CosineOf s G ∧
    (∀ a, a ≤ 12288 → F (cosLitAngle a) = G a) ∧
    (∀ a, 12289 ≤ a → a ≤ 16383 → F (cosLitAngle a) - G a = 0 ∨ F (cosLitAngle a) - G a = 1) ∧
    (List.range' 12289 4095).countP (fun a => F (cosLitAngle a) - G a == 0) = 30 ∧
    (List.range' 12289 4095).countP (fun a => F (cosLitAngle a) - G a == 1) = 4065 ∧
    (∀ a, 16384 ≤ a → a < 65536 → -1 ≤ F (cosLitAngle a) - G a ∧ F (cosLitAngle a) - G a ≤ 1) ∧
    ∃ a, a < 65536 ∧ F (cosLitAngle a) ≠ F (cosLitAngle (a % 16384))

/-- 44_laws.md R90, over any table that meets the contract (derived). -/
def Obligations.ConsequencesForCosine : Prop :=
  ∀ (s : State) (T : Nat → Nat), (∀ i, i < 17 → lookup s.rom i = .ok (T i)) → T 0 = 0 → T 16 = 32767 →
    (∀ i, i < 16 → T i ≤ T (i + 1)) → ∃ G : Nat → Int, CosineOf s G ∧
      (∀ a b, a ≤ b → b ≤ 8192 → G b ≤ G a) ∧ (∀ a b, 8192 ≤ a → a ≤ b → b ≤ 16383 → G a ≤ G b) ∧
      (∀ k, k ≤ 16 → G (256 * k) = T (16 - k)) ∧
      (∀ a, a ≤ 16383 → -1 ≤ G a - G ((16384 - a) % 16384) ∧ G a - G ((16384 - a) % 16384) ≤ 1)
end

