-- ==== Sys2Proof/Laws/Operands.lean ====
section
/-! SUPPORT. The fields of the angle and the two flags as arithmetic on the operand's value. -/

namespace Sys2Proof.Machine

/-- `extractBits` inside its domain (40_angle_decomposer.md R48, R50). -/
theorem extractBits_ok (v : Angle) {w o : Nat} (h : w + o ≤ 16) :
    extractBits v w o = .ok (v.toNat / 2 ^ o % 2 ^ w) := by
  rw [extractBits, if_pos h, Nat.shiftRight_eq_div_pow, Nat.and_two_pow_sub_one_eq_mod]

/-- `extractBits` outside its domain (40_angle_decomposer.md R49). -/
theorem extractBits_error (v : Angle) {w o : Nat} (h : 16 < w + o) :
    extractBits v w o = .error (.extractBitsOutOfRange w o) :=
  if_neg (Nat.not_le.mpr h)

@[simp] theorem interpOf_eq (a : Angle) : interpOf a = .ok (a.toNat % 256) := by
  rw [interpOf, extractBits_ok a (by decide)]
  simp

@[simp] theorem indexOf_eq (a : Angle) : indexOf a = .ok (a.toNat / 256 % 16) := by
  rw [indexOf, extractBits_ok a (by decide)]
  simp

/-- A single-bit mask selects its bit. -/
theorem and_twoPow_eq_zero_iff (a : BitVec 16) (k : Nat) (hk : k < 16) :
    a &&& BitVec.twoPow 16 k = 0#16 ↔ a.toNat / 2 ^ k % 2 = 0 := by
  rw [BitVec.and_twoPow, BitVec.getLsbD, Nat.testBit_eq_decide_div_mod_eq]
  by_cases h : a.toNat / 2 ^ k % 2 = 1
  · have : BitVec.twoPow 16 k ≠ 0#16 := by
      intro e
      have := congrArg BitVec.toNat e
      rw [BitVec.toNat_twoPow, Nat.mod_eq_of_lt (Nat.pow_lt_pow_right (by decide) hk)] at this
      simp at this
    simp [h, this]
  · simp [h]
    omega

/-- `fwd` is true exactly when bit 12 is 0 (40_angle_decomposer.md R52). -/
theorem fwdFlag_eq (a : Angle) : fwdFlag a = decide (a.toNat / 4096 % 2 = 0) := by
  have h := and_twoPow_eq_zero_iff a 12 (by decide)
  rw [show BitVec.twoPow 16 12 = Config.qLowMask from by decide] at h
  rw [fwdFlag, Bool.eq_iff_iff, beq_iff_eq, decide_eq_true_eq]
  exact h

/-- `neg` is true exactly when bit 13 is 1 (40_angle_decomposer.md R52). -/
theorem negFlag_eq (a : Angle) : negFlag a = decide (a.toNat / 8192 % 2 = 1) := by
  have h := and_twoPow_eq_zero_iff a 13 (by decide)
  rw [show BitVec.twoPow 16 13 = Config.qHighMask from by decide] at h
  rw [negFlag, Bool.eq_iff_iff, bne_iff_ne, decide_eq_true_eq]
  have : a.toNat / 2 ^ 13 % 2 = 0 ∨ a.toNat / 2 ^ 13 % 2 = 1 := by omega
  constructor
  · intro ne
    exact this.resolve_left fun z => ne (h.mpr z)
  · intro one z
    have := h.mp z
    omega

/-- The shifted angle as a number (43_cosine_adapter.md R72). -/
@[simp] theorem cosShift_toNat (a : Angle) : (cosShift a).toNat = (a.toNat + 4096) % 16384 := by
  rw [cosShift, BitVec.toNat_ofNat]
  exact Nat.mod_eq_of_lt (by simp only [Config.quadrant, Config.anglesInCycle]; omega)

end Sys2Proof.Machine
end

