-- ==== Sys2Proof/Laws/PerInstr.lean ====
section
/-! SUPPORT. Statements about every instruction as syntax, one lemma per constructor. -/

namespace Sys2Proof.Laws.EncodingFields

/-- The fields of an instruction stand where 30_encoding.md R37 puts them in its request word. -/
def Statement (i : Instr) : Prop :=
  (encode i).extractLsb' 16 1 = i.op ∧ (encode i).extractLsb' 0 16 = i.angle ∧
    (encode i).toNat = 65536 * i.op.toNat + i.angle.toNat ∧ i.wellFormed = true

theorem fields_of_append (o : BitVec 1) (a : BitVec 16) :
    (o ++ a).extractLsb' 16 1 = o ∧ (o ++ a).extractLsb' 0 16 = a ∧ (o ++ a).toNat = 65536 * o.toNat + a.toNat := by
  have toNat : (o ++ a).toNat = 65536 * o.toNat + a.toNat := by
    rw [BitVec.toNat_append, Nat.shiftLeft_eq, Nat.mul_comm]
    exact (Nat.two_pow_add_eq_or_of_lt a.isLt o.toNat).symm
  refine ⟨?_, ?_, toNat⟩
  · apply BitVec.eq_of_toNat_eq
    have := o.isLt
    have := a.isLt
    rw [BitVec.extractLsb'_toNat, toNat, Nat.shiftRight_eq_div_pow]
    omega
  · apply BitVec.eq_of_toNat_eq
    have := a.isLt
    rw [BitVec.extractLsb'_toNat, toNat, Nat.shiftRight_eq_div_pow]
    omega

theorem sin (angle : Angle) : Statement (.sin angle) :=
  have h := fields_of_append 0 angle
  ⟨h.1, h.2.1, h.2.2, rfl⟩

theorem cos (angle : Angle) : Statement (.cos angle) :=
  have h := fields_of_append 1 angle
  ⟨h.1, h.2.1, h.2.2, rfl⟩

end Sys2Proof.Laws.EncodingFields
end

