-- ==== Sys2Proof/Laws/Rom.lean ====
section
/-! SUPPORT. The ROM: one lemma for each reading operation, and the canonical form. -/

namespace Sys2Proof.Machine

@[simp] theorem Memory.bytesBE_zero (m : Memory) (addr : Nat) : m.bytesBE addr 0 = 0 := rfl

@[simp] theorem Memory.bytesBE_succ (m : Memory) (addr n : Nat) :
    m.bytesBE addr (n + 1) = m.bytesBE addr n * 256 + (m.cell (addr + n)).toNat := rfl

/-- `n` bytes make a number below `256 ^ n`. -/
theorem Memory.bytesBE_lt (m : Memory) (addr n : Nat) : m.bytesBE addr n < 256 ^ n := by
  induction n with
  | zero => simp
  | succ n ih =>
    have := (m.cell (addr + n)).isLt
    rw [Memory.bytesBE_succ, Nat.pow_succ]
    omega

/-- An entry is its two bytes, the more significant one first (20_memory.md R24). -/
theorem Memory.entry_eq (m : Memory) (i : Nat) :
    m.entry i = (m.cell (2 * i)).toNat * 256 + (m.cell (2 * i + 1)).toNat := by
  simp [Memory.entry]

theorem Memory.entry_lt (m : Memory) (i : Nat) : m.entry i < 65536 := m.bytesBE_lt _ 2

/-- All that `memRead` can answer. -/
theorem memRead_cases (m : Memory) (addr n : Nat) :
    (1 ≤ n ∧ addr + n ≤ 34 ∧ memRead m addr n = .ok (m.bytesBE addr n)) ∨
    (¬(1 ≤ n ∧ addr + n ≤ 34) ∧ memRead m addr n = .error (.memReadOutOfImage addr n)) := by
  by_cases h : 1 ≤ n ∧ addr + n ≤ 34
  · exact .inl ⟨h.1, h.2, if_pos h⟩
  · exact .inr ⟨h, if_neg h⟩

/-- `lookup` on an implemented entry (41_sine_table_rom.md R56). -/
theorem lookup_ok (m : Memory) {i : Nat} (h : i < 17) : lookup m i = .ok (m.entry i) := by
  have h' : 1 ≤ Config.entryBytes ∧ Config.entryBytes * i + Config.entryBytes ≤ Config.imageBytes := by
    simp only [Config.entryBytes, Config.imageBytes, Config.tableEntries]
    omega
  rw [lookup, if_pos h, memRead, if_pos h']
  rfl

/-- `lookup` above the table (41_sine_table_rom.md R57). -/
theorem lookup_error (m : Memory) {i : Nat} (h : 17 ≤ i) : lookup m i = .error (.romIndexOutOfRange i) :=
  if_neg (Nat.not_lt.mpr h)

/-- The one memory operation that builds a memory keeps the canonical form, whatever the image. -/
theorem Memory.ofImage_wf (image : List Byte) : (Memory.ofImage image).wf = true := by
  have key : ∀ (l : List Nat), l.Pairwise (· < ·) → (∀ a ∈ l, a < 34) →
      Memory.wf (l.filterMap fun addr =>
        if image.getD addr 0 = resetByte addr then none else some (addr, image.getD addr 0)) = true := by
    intro l sorted inside
    rw [Memory.wf, Bool.and_eq_true, decide_eq_true_eq, List.all_eq_true]
    constructor
    · rw [List.pairwise_filterMap]
      refine sorted.imp ?_
      intro a b lt c hc d hd
      split at hc <;> simp at hc
      split at hd <;> simp at hd
      subst hc hd
      exact lt
    · intro c hc
      obtain ⟨a, ha, hac⟩ := List.mem_filterMap.mp hc
      split at hac <;> simp at hac
      subst hac
      have := inside a ha
      simp_all
  exact key _ List.pairwise_lt_range fun a ha => List.mem_range.mp ha

/-- What the canonical form says. -/
theorem Memory.wf_iff (m : Memory) :
    m.wf = true ↔ m.Pairwise (fun c d => c.1 < d.1) ∧ ∀ c ∈ m, c.1 < 34 ∧ c.2 ≠ resetByte c.1 := by
  simp [Memory.wf]

/-- The contract as equations and inequalities (10_state.md R12). -/
theorem Memory.contract_iff (m : Memory) :
    m.contract = true ↔ m.entry 0 = 0 ∧ m.entry 16 = 32767 ∧ ∀ i, i < 16 → m.entry i ≤ m.entry (i + 1) := by
  simp [Memory.contract, and_assoc]

end Sys2Proof.Machine
end

