-- ==== Sys2Proof/Laws/State.lean ====
section
/-! SUPPORT. The fields of a state after each of the shared updates. -/

namespace Sys2Proof.Machine

@[simp] theorem State.respond_rom (s : State) (p : RespWord) : (s.respond p).rom = s.rom := rfl
@[simp] theorem State.respond_requests (s : State) (p : RespWord) : (s.respond p).requests = s.requests := rfl
@[simp] theorem State.respond_responses (s : State) (p : RespWord) :
    (s.respond p).responses = s.responses ++ [p] := rfl

@[simp] theorem State.reset_rom : State.reset.rom = [] := rfl
@[simp] theorem State.reset_requests : State.reset.requests = [] := rfl
@[simp] theorem State.reset_responses : State.reset.responses = [] := rfl

/-- Everything `nextRequest` can answer. -/
theorem nextRequest_cases (s : State) :
    (s.requests = [] ∧ nextRequest s = none) ∨
    (∃ w rest, s.requests = w :: rest ∧ nextRequest s = some (w, { s with requests := rest })) := by
  unfold nextRequest
  cases h : s.requests with
  | nil => exact .inl ⟨rfl, rfl⟩
  | cons w rest => exact .inr ⟨w, rest, rfl, rfl⟩

/-- Everything an operation's end can answer: a response and nothing else, or the fault of its result. -/
theorem complete_cases (r : Except Fault Int) (s : State) :
    (∃ z, r = .ok z ∧ complete r s = .next (s.respond (respPattern z))) ∨
    (∃ f, r = .error f ∧ complete r s = .fault f) := by
  cases r with
  | ok z => exact .inl ⟨z, rfl, rfl⟩
  | error f => exact .inr ⟨f, rfl, rfl⟩

@[simp] theorem complete_ok (z : Int) (s : State) : complete (.ok z) s = .next (s.respond (respPattern z)) := rfl
@[simp] theorem complete_error (f : Fault) (s : State) : complete (.error f) s = .fault f := rfl

/-- `twos_16` inside its domain (00_scope.md R6). -/
theorem respPattern_of_range (z : Int) (lo : -32768 ≤ z) (hi : z < 32768) : respPattern z = BitVec.ofInt 16 z :=
  if_pos ⟨lo, hi⟩

/-- `signed_16(twos_16(z)) = z` (00_scope.md R6). -/
theorem respPattern_toInt (z : Int) (lo : -32768 ≤ z) (hi : z < 32768) : (respPattern z).toInt = z := by
  rw [respPattern_of_range z lo hi, BitVec.toInt_ofInt, Int.bmod_def]
  omega

end Sys2Proof.Machine
end

