-- ==== Sys2Proof/Laws/Sine.lean ====
section
/-! SUPPORT. The sine path in closed form: it never faults, whatever the ROM holds. -/

namespace Sys2Proof.Machine

/-- The effective index of an angle (42_sine_engine.md R60). -/
def effIndex (a : Nat) : Nat := if a / 4096 % 2 = 0 then a / 256 % 16 else 15 - a / 256 % 16

theorem effIndex_le (a : Nat) : effIndex a ≤ 15 := by
  unfold effIndex
  split <;> omega

/-- The interpolated delta of a segment (42_sine_engine.md R63, R64). -/
def segmentDelta (T : Nat → Nat) (i f : Nat) : Int := (((T (i + 1) : Int) - T i) * f).tdiv 256

/-- The magnitude of the sine over a table `T` (42_sine_engine.md R65). -/
def sineMagnitude (T : Nat → Nat) (a : Nat) : Int :=
  if a / 4096 % 2 = 0 then T (effIndex a) + segmentDelta T (effIndex a) (a % 256)
  else T (effIndex a + 1) - segmentDelta T (effIndex a) (a % 256)

/-- The sine over a table `T` (42_sine_engine.md R67). -/
def sineValue (T : Nat → Nat) (a : Nat) : Int :=
  if a / 8192 % 2 = 1 then -sineMagnitude T a else sineMagnitude T a

/-- All the internal signals of an operation, in every state (10_state.md R19). -/
theorem sineSignals_eq (m : Memory) (a : Angle) :
    sineSignals m a = .ok
      { interp := a.toNat % 256, index := a.toNat / 256 % 16, fwd := decide (a.toNat / 4096 % 2 = 0),
        neg := decide (a.toNat / 8192 % 2 = 1), idx := effIndex a.toNat, x1 := m.entry (effIndex a.toNat),
        x2 := m.entry (effIndex a.toNat + 1), d := (m.entry (effIndex a.toNat + 1) : Int) - m.entry (effIndex a.toNat),
        p := ((m.entry (effIndex a.toNat + 1) : Int) - m.entry (effIndex a.toNat)) * (a.toNat % 256 : Nat),
        approx := segmentDelta m.entry (effIndex a.toNat) (a.toNat % 256), mag := sineMagnitude m.entry a.toNat,
        sine := sineValue m.entry a.toNat } := by
  have idx : quadrantFolder (fwdFlag a) (a.toNat / 256 % 16) = effIndex a.toNat := by
    simp [quadrantFolder, effIndex, fwdFlag_eq]
  have le := effIndex_le a.toNat
  simp only [sineSignals, interpOf_eq, indexOf_eq, bind, Except.bind, idx, lookup_ok m (show effIndex a.toNat < 17 by omega),
    lookup_ok m (show effIndex a.toNat + 1 < 17 by omega), pure, Except.pure]
  simp [fwdFlag_eq, negFlag_eq, interpProduct, interpDelta, segmentDelta, magnitude, applySign, sineMagnitude, sineValue]

@[simp] theorem sinePath_eq (m : Memory) (a : Angle) : sinePath m a = .ok (sineValue m.entry a.toNat) := by
  rw [sinePath, sineSignals_eq]
  rfl

/-- SIN completes in every state. -/
theorem exec_sin (a : Angle) (s : State) :
    exec (.sin a) s = .next (s.respond (respPattern (sineValue s.rom.entry a.toNat))) := by
  simp [exec, execSin]

/-- COS completes in every state. -/
theorem exec_cos (a : Angle) (s : State) :
    exec (.cos a) s = .next (s.respond (respPattern (sineValue s.rom.entry ((a.toNat + 4096) % 16384)))) := by
  simp [exec, execCos]

/-- The interpolated delta of a rising segment lies between 0 and its height (42_sine_engine.md R66). -/
theorem segmentDelta_bounds (T : Nat → Nat) (i f : Nat) (rising : T i ≤ T (i + 1)) (hf : f < 256) :
    segmentDelta T i f = (((T (i + 1) - T i) * f / 256 : Nat) : Int) ∧ 0 ≤ segmentDelta T i f ∧
      segmentDelta T i f ≤ (T (i + 1) : Int) - T i := by
  have h : segmentDelta T i f = (((T (i + 1) - T i) * f / 256 : Nat) : Int) := by
    unfold segmentDelta
    rw [← Nat.cast_sub rising]
    norm_cast
  have up : (T (i + 1) - T i) * f / 256 ≤ T (i + 1) - T i := by
    have : (T (i + 1) - T i) * f ≤ (T (i + 1) - T i) * 256 := Nat.mul_le_mul_left _ (by omega)
    omega
  refine ⟨h, ?_, ?_⟩ <;> omega

/-- The facts of the contract that the proofs use: entries never decrease (10_state.md R12). -/
theorem table_mono (T : Nat → Nat) (rising : ∀ i, i < 16 → T i ≤ T (i + 1)) {i j : Nat} (hij : i ≤ j) (hj : j ≤ 16) :
    T i ≤ T j := by
  induction j with
  | zero => simp_all
  | succ j ih =>
    rcases Nat.eq_or_lt_of_le hij with rfl | lt
    · exact Nat.le_refl _
    · exact (ih (by omega) (by omega)).trans (rising j (by omega))

/-- The magnitude over a table that meets the contract (42_sine_engine.md R66). -/
theorem sineMagnitude_bounds (T : Nat → Nat) (rising : ∀ i, i < 16 → T i ≤ T (i + 1)) (last : T 16 = 32767) (a : Nat) :
    0 ≤ sineMagnitude T a ∧ sineMagnitude T a ≤ 32767 := by
  have le := effIndex_le a
  have b := segmentDelta_bounds T (effIndex a) (a % 256) (rising _ (by omega)) (by omega)
  have t1 := table_mono T rising (i := effIndex a + 1) (j := 16) (by omega) (by omega)
  unfold sineMagnitude
  split <;> omega

/-- The sine over a table that meets the contract (42_sine_engine.md R67). -/
theorem sineValue_bounds (T : Nat → Nat) (rising : ∀ i, i < 16 → T i ≤ T (i + 1)) (last : T 16 = 32767) (a : Nat) :
    -32767 ≤ sineValue T a ∧ sineValue T a ≤ 32767 := by
  have b := sineMagnitude_bounds T rising last a
  unfold sineValue
  split <;> omega

end Sys2Proof.Machine
end

