-- ==== Sys2Proof/Laws/Step.lean ====
section
/-! SUPPORT. What one step can do. -/

namespace Sys2Proof.Machine

/-- Everything an operation can do: it adds one response, which depends on the ROM's entries and the instruction. -/
theorem exec_cases (i : Instr) (s : State) :
    ∃ e : Nat, (i = .sin i.angle ∧ e = i.angle.toNat ∨ i = .cos i.angle ∧ e = (i.angle.toNat + 4096) % 16384) ∧
      exec i s = .next (s.respond (respPattern (sineValue s.rom.entry e))) := by
  cases i with
  | sin a => exact ⟨_, .inl ⟨rfl, rfl⟩, exec_sin a s⟩
  | cos a => exact ⟨_, .inr ⟨rfl, rfl⟩, exec_cos a s⟩

/-- Everything a step can do: idle, or run the decoded request at the head of the stream. -/
theorem step_cases (s : State) :
    (s.requests = [] ∧ step s = .next s) ∨
    (∃ w rest, s.requests = w :: rest ∧ step s = exec (decode w) { s with requests := rest }) := by
  unfold step
  rcases nextRequest_cases s with ⟨h, e⟩ | ⟨w, rest, h, e⟩
  · exact .inl ⟨h, by rw [e]; rfl⟩
  · exact .inr ⟨w, rest, h, by rw [e]⟩

/-- A run of no step. -/
theorem run_zero (s : State) : core.run 0 s = .next s := rfl

/-- A run whose first step answers a next state goes on from that state. -/
theorem run_succ (n : Nat) {s t : State} (h : step s = .next t) : core.run (n + 1) s = core.run n t := by
  have h' : core.step s = Host.Outcome.next t := h
  simp only [Host.Core.run, h']

end Sys2Proof.Machine
end

