-- ==== Sys2Proof/Laws/Table.lean ====
section
/-! SUPPORT. The premises of the claims as facts about the ROM's entries, and the answers of the two operations. -/

namespace Sys2Proof.Machine

theorem entry_of_lookup {m : Memory} {i v : Nat} (hi : i < 17) (h : lookup m i = .ok v) : m.entry i = v := by
  rw [lookup_ok m hi] at h
  exact Except.ok.inj h

theorem HoldsTable.entry {m : Memory} (h : HoldsTable m) {i : Nat} (hi : i < 17) : m.entry i = specTable.getD i 0 :=
  entry_of_lookup hi (h i hi)

/-- The contract, of the entries (10_state.md R12). -/
theorem meetsContract_iff (m : Memory) :
    MeetsContract m ↔ m.entry 0 = 0 ∧ m.entry 16 = 32767 ∧ ∀ i, i < 16 → m.entry i ≤ m.entry (i + 1) := by
  constructor
  · rintro ⟨T, look, first, last, rising⟩
    have e : ∀ i, i < 17 → m.entry i = T i := fun i hi => entry_of_lookup hi (look i hi)
    refine ⟨(e 0 (by omega)).trans first, (e 16 (by omega)).trans last, fun i hi => ?_⟩
    rw [e i (by omega), e (i + 1) (by omega)]
    exact rising i hi
  · rintro ⟨first, last, rising⟩
    exact ⟨m.entry, fun i hi => lookup_ok m hi, first, last, rising⟩

/-- The sine over two tables that agree on the 17 entries is the same. -/
theorem sineValue_congr {T U : Nat → Nat} (h : ∀ i, i < 17 → T i = U i) (a : Nat) : sineValue T a = sineValue U a := by
  have le := effIndex_le a
  have lower := h (effIndex a) (by omega)
  have upper := h (effIndex a + 1) (by omega)
  simp only [sineValue, sineMagnitude, segmentDelta, lower, upper]

/-- SIN answers a result that has a 16-bit pattern. -/
theorem answers_sin (s : State) (a : Angle) {z : Int} (h : sineValue s.rom.entry a.toNat = z) (lo : -32768 ≤ z)
    (hi : z < 32768) : Answers s (.sin a) z :=
  ⟨_, exec_sin a s, by rw [h]; exact respPattern_toInt z lo hi⟩

/-- COS answers a result that has a 16-bit pattern. -/
theorem answers_cos (s : State) (a : Angle) {z : Int} (h : sineValue s.rom.entry ((a.toNat + 4096) % 16384) = z)
    (lo : -32768 ≤ z) (hi : z < 32768) : Answers s (.cos a) z :=
  ⟨_, exec_cos a s, by rw [h]; exact respPattern_toInt z lo hi⟩

end Sys2Proof.Machine
end

