-- ==== Sys2Proof/Laws/Text.lean ====
section
/-! SUPPORT. The text form: literals read back, and a comment is dropped. -/

namespace Sys2Proof.Machine

theorem digitValue_digitChar_decimal : ∀ d, d < 10 → digitValue 10 (Nat.digitChar d) = some d := by decide

theorem digitValue_digitChar_hex : ∀ d, d < 16 → digitValue 16 (Nat.digitChar d) = some d := by decide

/-- A digit is no space, no comment sign and no part of the prefix. -/
theorem digitChar_plain : ∀ d, d < 16 → Nat.digitChar d ≠ ';' ∧ Nat.digitChar d ≠ ' ' ∧ Nat.digitChar d ≠ 'x' := by decide

/-- One more digit at the end of a literal. -/
theorem digitsValue_snoc (base acc : Nat) (cs : List Char) (c : Char) (v w : Nat) (h : digitsValue base acc cs = some v)
    (hc : digitValue base c = some w) : digitsValue base acc (cs ++ [c]) = some (v * base + w) := by
  induction cs generalizing acc with
  | nil => simp_all [digitsValue]
  | cons d cs ih =>
    rw [digitsValue] at h
    rw [List.cons_append, digitsValue]
    cases e : digitValue base d with
    | some x => rw [e] at h; exact ih _ h
    | none => rw [e] at h; cases h

/-- What `decimalDigits` writes: digits that read back as the number. -/
theorem decimalDigits_spec (fuel n : Nat) (h : n < fuel) : digitsValue 10 0 (decimalDigits fuel n) = some n ∧
    decimalDigits fuel n ≠ [] ∧ ∀ c ∈ decimalDigits fuel n, c ≠ ';' ∧ c ≠ ' ' ∧ c ≠ 'x' := by
  induction fuel generalizing n with
  | zero => omega
  | succ fuel ih =>
    rw [decimalDigits]
    split
    · next lt => exact ⟨by simp [digitsValue, digitValue_digitChar_decimal n lt], by simp, by simp [digitChar_plain n (by omega)]⟩
    · obtain ⟨value, _, plain⟩ := ih (n / 10) (by omega)
      have last := digitValue_digitChar_decimal (n % 10) (by omega)
      refine ⟨?_, by simp, fun d hd => ?_⟩
      · rw [digitsValue_snoc 10 0 _ _ _ _ value last, show n / 10 * 10 + n % 10 = n by omega]
      · rcases List.mem_append.mp hd with hd | hd
        · exact plain d hd
        · rw [List.mem_singleton.mp hd]
          exact digitChar_plain (n % 10) (by omega)

/-- A decimal literal reads back (30_encoding.md R44). -/
theorem literalValue_decimal (n : Nat) : literalValue (decimal n) = some n := by
  obtain ⟨value, nonempty, plain⟩ := decimalDigits_spec (n + 1) n (by omega)
  rw [decimal]
  generalize decimalDigits (n + 1) n = cs at *
  unfold literalValue
  split
  · exact absurd rfl nonempty
  · exact absurd rfl (plain 'x' (by simp)).2.2
  · exact absurd rfl (plain 'x' (by simp)).2.2
  · exact value

/-- A pattern reads back as a hexadecimal literal (30_encoding.md R44). -/
theorem literalValue_hexPattern (p : RespWord) : literalValue (hexPattern p) = some p.toNat := by
  have := p.isLt
  simp only [hexPattern, literalValue, digitsValue, digitValue_digitChar_hex _ (Nat.mod_lt _ (show 0 < 16 by decide))]
  congr 1
  omega

/-- `stripComment` drops the spaces at the end and a comment after them (30_encoding.md R44, log 7). -/
theorem stripComment_eq (cs : List Char) (k : Nat) (t : List Char) (nonempty : cs ≠ [])
    (last : cs.getLast nonempty ≠ ' ') (plain : ∀ c ∈ cs, c ≠ ';') (ht : t = [] ∨ ∃ u, t = ';' :: u) :
    stripComment (cs ++ List.replicate k ' ' ++ t) = cs := by
  have body : (cs ++ List.replicate k ' ' ++ t).takeWhile (· ≠ ';') = cs ++ List.replicate k ' ' := by
    rw [List.takeWhile_append_of_pos]
    · rcases ht with rfl | ⟨u, rfl⟩ <;> simp
    · intro c hc
      rcases List.mem_append.mp hc with hc | hc
      · simpa using plain c hc
      · rw [List.eq_of_mem_replicate hc]
        decide
  rw [stripComment, body, List.reverse_append, List.reverse_replicate, List.dropWhile_append_of_pos]
  · obtain ⟨xs, x, rfl⟩ : ∃ xs x, cs = xs ++ [x] := ⟨_, _, (List.dropLast_append_getLast nonempty).symm⟩
    simp at last
    simp [last]
  · intro c hc
    rw [List.eq_of_mem_replicate hc]
    decide

end Sys2Proof.Machine
end

