-- ==== Sys2Proof/Tests/Slice0.lean ====
section
/-! SUPPORT. Tests, with expected results from the tables of spec/95_test_vectors.md and the rules' own examples, and a
witness for the hypotheses of each statement. -/

namespace Sys2Proof.Tests

open Sys2Proof Sys2Proof.Machine

/-- The block with one request presented. -/
def presented (w : ReqWord) : State := { State.reset with requests := [w] }

/-- The values of the responses in the next state. -/
def answered : Host.Outcome State Fault Refusal → Option (List Int)
  | .next t => some (t.responses.map RespWord.value)
  | .fault _ => none
  | .refused _ => none

/-- Another table that meets the contract: entry 1 is 0x0d8c = 3468. -/
def otherRom : Memory := [(2, 0x0d)]

/-- A table that falls from entry 1 to entry 2: entry 2 is 0x08f9 = 2297, below 3212. It breaks the contract. -/
def fallingRom : Memory := [(4, 0x08)]

/-! ### Well-formed terms -/

/-- The one check on a line refuses a literal above 65535 (30_encoding.md R44). -/
theorem test_line_too_large_refused : Line.wellFormed ⟨.cos, 65536⟩ = false := by decide
theorem test_line_largest_accepted : Line.wellFormed ⟨.cos, 65535⟩ = true := by decide
theorem test_assemble_too_large_refused : assembleLine ⟨.sin, 65536⟩ = .error (.operandTooLarge 65536) := by decide

/-! ### Encoding: words of 95_test_vectors.md section 3, bit by bit -/

theorem test_decode_sin : decode 0b00000111101111111#17 = .sin 3967 := by decide
theorem test_decode_sin_all_ones : decode 0b01111111111111111#17 = .sin 65535 := by decide
theorem test_decode_cos : decode 0b10011101010011000#17 = .cos 15000 := by decide
theorem test_decode_cos_zero : decode 0b10000000000000000#17 = .cos 0 := by decide
theorem test_encode_sin : encode (.sin 49852) = 0b01100001010111100#17 := by decide
theorem test_encode_cos : encode (.cos 12289) = 0b10011000000000001#17 := by decide
theorem test_table_word_sin : decodeTableWord 24 0x00000 = some (.sin 0) := by decide
theorem test_table_word_cos : decodeTableWord 24 0x10000 = some (.cos 0) := by decide
theorem test_table_word_too_long : decodeTableWord 24 0x20000 = none := by decide

/-! ### One step: 95_test_vectors.md sections 3.4 and 2.7 -/

theorem test_sin_last_segment : answered (step (presented 0x00f7f)) = some [32687] := by decide
theorem test_sin_all_ones : answered (step (presented 0x0ffff)) = some [-13] := by decide
theorem test_cos_wrap_range : answered (step (presented 0x13001)) = some [12] := by decide
theorem test_cos_all_ones : answered (step (presented 0x1ffff)) = some [32766] := by decide

/-- The first instruction after reset, as the host presents it. -/
theorem test_fetch_word : answered (step (State.reset.withFetchWord 24 0x10800)) = some [23170] := by decide

/-! ### Stages: 95_test_vectors.md sections 2.1 to 2.3 -/

theorem test_signals_mirrored : sineSignals [] 4796 = .ok
    { interp := 188, index := 2, fwd := false, neg := false, idx := 13, x1 := 31356, x2 := 32137, d := 781, p := 146828,
      approx := 573, mag := 31564, sine := 31564 } := by decide
theorem test_signals_negative : sineSignals [] 8892 = .ok
    { interp := 188, index := 2, fwd := true, neg := true, idx := 2, x1 := 6393, x2 := 9512, d := 3119, p := 586372,
      approx := 2290, mag := 8683, sine := -8683 } := by decide
theorem test_extractBits_field : extractBits 0xabcd 4 8 = .ok 11 := by decide
theorem test_extractBits_refused : extractBits 0xabcd 8 9 = .error (.extractBitsOutOfRange 8 9) := by decide
theorem test_lookup_sentinel : lookup [] 16 = .ok 32767 := by decide
theorem test_lookup_refused : lookup [] 17 = .error (.romIndexOutOfRange 17) := by decide

/-- Byte order (20_memory.md R26): entry 1 is 3212 and not 35852. -/
theorem test_byte_order : memRead [] 2 2 = .ok 3212 := by decide

/-- Signed difference and truncation toward zero on a falling table (42_sine_engine.md R63, R64): (2297 - 3212) * 1 is
-915, and -915 div 256 is -3, where flooring would give -4. -/
theorem test_falling_table_truncates : (sineSignals fallingRom 257).map SineSignals.approx = .ok (-3) := by decide

/-- A byte-swapped image, one without the sentinel and the image itself (70_reset_and_hazards.md R107). -/
theorem test_image_accepted : romOfImage specImage = some [] := by decide
theorem test_image_without_sentinel_refused : romOfImage (specImage.take 32) = none := by decide
theorem test_image_swapped_refused : romOfImage ((specImage.drop 1) ++ [0x00]) = none := by decide

/-! ### Text: 30_encoding.md R44 -/

theorem test_exchange : renderExchange (.sin 2048) 0x5a82 =
    ['S', 'I', 'N', ' ', '2', '0', '4', '8', ' ', '=', '>', ' ', '2', '3', '1', '7', '0', ' ',
     '(', '0', 'x', '5', 'a', '8', '2', ')'] := by decide
theorem test_assemble_hex : assemble ['c', 'o', 's', ' ', '0', 'x', '0', '8', '0', '0', ' ', ';', 'q'] = .ok (.cos 2048) := by
  decide
theorem test_assemble_comment_only : assemble [' ', ';', 'S', 'I', 'N'] = .error .noRequest := by decide

/-! ### Witnesses for the hypotheses of the statements -/

theorem reset_holds_table : HoldsTable State.reset.rom := by
  intro i h
  have all : ∀ i, i < 17 → lookup [] i = .ok (specTable.getD i 0) := by decide
  exact all i h

theorem specTable_rises : ∀ i, i < 16 → specTable.getD i 0 ≤ specTable.getD (i + 1) 0 := by decide

theorem reset_meets_contract : MeetsContract State.reset.rom :=
  ⟨fun i => specTable.getD i 0, reset_holds_table, rfl, rfl, specTable_rises⟩

/-- A table other than the spec's meets the contract too. -/
theorem other_meets_contract : MeetsContract otherRom ∧ lookup otherRom 1 = .ok 3468 ∧ otherRom.wf = true := by
  refine ⟨⟨fun i => otherRom.entry i, fun i h => lookup_ok otherRom h, by decide, by decide, by decide⟩, by decide, by decide⟩

/-- RangeOfResults, QuadrantBoundaries, HalfTurnAntisymmetry, MonotonicityNeedsOnlyTheContract, ResponseWordFormat,
SinAndCosAreTotal and the contract clause of LookupOnAndAboveTheTable and SignedDifferenceAndTruncatingDivision: states
that meet their premise, one with the spec's table and one with another. -/
theorem witness_contract : MeetsContract State.reset.rom ∧ MeetsContract { State.reset with rom := otherRom }.rom :=
  ⟨reset_meets_contract, other_meets_contract.1⟩

/-- RangeOfResults, its last clause: an operation and the response it gives. -/
theorem witness_range_pattern : ∃ (t : State) (p : RespWord), MeetsContract State.reset.rom ∧
    exec (.sin 12288) State.reset = .next t ∧ t.responses = State.reset.responses ++ [p] :=
  ⟨_, _, reset_meets_contract, exec_sin 12288 State.reset, rfl⟩

/-- ResponseWordFormat: each form, and an angle that the adapter wraps. -/
theorem witness_response_forms : MeetsContract State.reset.rom ∧
    (Instr.sin 12288 = .sin 12288 ∧ (12288 : Angle) = 12288) ∧ Instr.cos 12288 = .cos 12288 ∧ (0 : Angle) = cosShift 12288 :=
  ⟨reset_meets_contract, by decide, by decide, by decide⟩

/-- TableMeetsTheContract, BoundsOfTheInternalSignals, ConcreteScenarios and the laws with counts. -/
theorem witness_table : HoldsTable State.reset.rom ∧ lookup State.reset.rom 15 = .ok 32609 ∧
    lookup State.reset.rom (15 + 1) = .ok 32767 ∧ lookup State.reset.rom 0 = .ok 0 ∧
    lookup State.reset.rom (0 + 1) = .ok 3212 :=
  ⟨reset_holds_table, by decide, by decide, by decide, by decide⟩

/-- SinExecutesItsPseudocode, ClosedFormsOfSine, ExactAtTheSamplePoints, ConsequencesForCosine: the table as `T`. -/
theorem witness_table_function : ∃ T : Nat → Nat, (∀ i, i < 17 → lookup State.reset.rom i = .ok (T i)) ∧ T 0 = 0 ∧
    T 16 = 32767 ∧ ∀ i, i < 16 → T i ≤ T (i + 1) :=
  ⟨fun i => specTable.getD i 0, reset_holds_table, rfl, rfl, specTable_rises⟩

/-- FourQuadrants and ClosedFormsOfSine: both ends of each quadrant. -/
theorem witness_quadrants : (0 : Angle).toNat % 16384 ≤ 4095 ∧ (4095 : Angle).toNat % 16384 ≤ 4095 ∧
    4096 ≤ (4096 : Angle).toNat % 16384 ∧ (8191 : Angle).toNat % 16384 ≤ 8191 ∧
    8192 ≤ (8192 : Angle).toNat % 16384 ∧ (12287 : Angle).toNat % 16384 ≤ 12287 ∧
    12288 ≤ (12288 : Angle).toNat % 16384 ∧ 12288 ≤ (65535 : Angle).toNat % 16384 := by decide

/-- TwoBranchFormOfTheCosineShift: both ends of each clause. -/
theorem witness_two_branches : (12287 : Angle).toNat ≤ 12287 ∧ 12288 < (12289 : Angle).toNat ∧
    12288 < (16383 : Angle).toNat ∧ (16383 : Angle).toNat ≤ 16383 ∧ 12288 < (65535 : Angle).toNat := by decide

/-- StepRunsTheDecodedRequest and EveryRequestWordIsAnswered: a request at the head, and none. -/
theorem witness_request : (presented 0x13001).requests = 0x13001#17 :: [] ∧
    (presented 0x13001).requests = encode (.cos 12289) :: [] ∧ State.reset.requests = [] := by decide

/-- RunAnswersTheRequestStream: a stream of two requests, another state with the same ROM. -/
theorem witness_stream : (presented 0).rom = State.reset.rom ∧
    2 ≤ { State.reset with requests := [0x00f7f, 0x13001] }.requests.length := by decide

/-- ResponseDependsOnRequestAndRomOnly: two states that differ outside the ROM. -/
theorem witness_same_rom : (∀ k, k < 17 → lookup (presented 7).rom k = lookup State.reset.rom k) ∧
    presented 7 ≠ State.reset := by decide

/-- FrameOfSinAndCos, RomIsNeverWritten and StepKeepsTheInvariant: a step that answers a request, from a state that
meets the invariant, and the run of that one step. -/
theorem witness_step : ∃ t, exec (.cos 0) State.reset = .next t ∧ (presented 0x10000).Inv ∧
    step (presented 0x10000) = .next t ∧ core.run 1 (presented 0x10000) = .next t := by
  have h : step (presented 0x10000) = exec (.cos 0) State.reset := rfl
  exact ⟨_, exec_cos 0 State.reset, ⟨rfl, reset_holds_table, fun p hp => by cases hp⟩, h.trans (exec_cos 0 State.reset),
    run_succ 0 (h.trans (exec_cos 0 State.reset))⟩

/-- NumbersOfSeventeenBitsDecode and TextFormReadsBack: the ends of the ranges. -/
theorem witness_numbers : 65535 < 65536 ∧ 65536 ≤ 65536 ∧ 131071 < 131072 ∧ 131072 ≤ 131072 := by decide

/-- PackedImageLayout: the last entry of a ROM. -/
theorem witness_last_entry : 16 < 17 ∧ lookup otherRom 16 = .ok 32767 := by decide

/-- MemReadIsBigEndian, MemReadOutsideTheImageFaults and LookupOnAndAboveTheTable: the ends of their domains. -/
theorem witness_read_domain : 1 ≤ 34 ∧ 0 + 34 ≤ 34 ∧ 33 + 1 ≤ 34 ∧ 34 < 33 + 2 ∧ 16 ≤ 16 ∧ 16 < 17 := by decide

/-- RomIsBuiltFromCheckedImages: the spec's image, and another that is built into another ROM. -/
theorem witness_images : romOfImage specImage = some State.reset.rom ∧ romOfImage (specImage.set 2 0x0d) = some otherRom := by
  decide

/-- CanonicalMemoriesThatReadAlikeAreEqual: a memory in canonical form, not the empty one. -/
theorem witness_canonical : otherRom.wf = true ∧ (∀ k, k < 34 → memRead otherRom k 1 = memRead otherRom k 1) ∧
    otherRom ≠ [] := by decide

/-- ExtractBitsTakesItsField and ExtractBitsDomainAndForms: both sides of the word size. -/
theorem witness_extract : 16 + 0 ≤ 16 ∧ 1 + 15 ≤ 16 ∧ 16 < 8 + 9 := by decide

/-- EffectiveIndexStaysInTheTable: a ROM that holds the table, and the last pair. -/
theorem witness_last_pair : HoldsTable State.reset.rom ∧ 15 ≤ 15 := ⟨reset_holds_table, by decide⟩

/-- ResponseIsThePatternOfTheResult: an angle, its result in range, an angle that the adapter shifts to it. -/
theorem witness_result_in_range : sinePath State.reset.rom 1 = .ok 12 ∧ (-32768 : Int) ≤ 12 ∧ (12 : Int) < 32768 ∧
    cosShift 12289 = 1 := by decide

/-- OddSymmetryWithinOneUnit, SineIsMonotoneInEachQuadrant, MirrorSymmetryWithinOneUnit, LastTableSegment and
LiteralCosineDiffersFromCosine: the ROM they assume. Their other bounds are on numbers, met at both ends. -/
theorem witness_laws : HoldsTable State.reset.rom ∧ HoldsTable (presented 0x10000).rom :=
  ⟨reset_holds_table, reset_holds_table⟩

end Sys2Proof.Tests
end

section
/-! SUPPORT. The table after reset (10_state.md R11, R21). -/

namespace Sys2Proof.Machine

/-- What it takes to hold the table, of the entries (10_state.md R11). -/
theorem holdsTable_iff (m : Memory) : HoldsTable m ↔ ∀ i, i < 17 → m.entry i = specTable.getD i 0 := by
  constructor
  · exact fun h i hi => h.entry hi
  · intro h i hi
    rw [lookup_ok m hi, h i hi]

/-- The bytes of the image after reset, joined in pairs, are the decimal column of 10_state.md R11. -/
theorem reset_entry_eq_specTable : ∀ i, i < 17 → State.reset.rom.entry i = specTable.getD i 0 := by
  decide

theorem holdsTable_reset : HoldsTable State.reset.rom :=
  (holdsTable_iff State.reset.rom).mpr reset_entry_eq_specTable

/-- Settles O14: the entries after reset are those of the table, and the sentinel is the last of them. -/
theorem romAfterResetHoldsTheTable : Obligations.RomAfterResetHoldsTheTable := by
  have sentinel : lookup State.reset.rom 16 = .ok 0x7fff := holdsTable_reset 16 (by omega)
  exact ⟨holdsTable_reset, sentinel⟩

end Sys2Proof.Machine
end

section
/-! SUPPORT. No step and no run writes the ROM (20_memory.md R28). -/

namespace Sys2Proof.Machine

/-- An operation leaves the ROM as it was (20_memory.md R28). -/
theorem exec_rom {i : Instr} {s t : State} (h : exec i s = .next t) : t.rom = s.rom := by
  obtain ⟨e, -, he⟩ := exec_cases i s
  obtain rfl := Host.Outcome.next.inj (he.symm.trans h)
  exact State.respond_rom s _

/-- A step, idle or not, leaves the ROM as it was (20_memory.md R28). -/
theorem step_rom {s t : State} (h : step s = .next t) : t.rom = s.rom := by
  rcases step_cases s with ⟨-, idle⟩ | ⟨w, rest, -, serve⟩
  · obtain rfl := Host.Outcome.next.inj (idle.symm.trans h)
    rfl
  · have kept : t.rom = State.rom { s with requests := rest } := exec_rom (serve.symm.trans h)
    exact kept

/-- No step stops: neither operation faults, and without a request the block idles. -/
theorem exists_step_next (s : State) : ∃ t, step s = .next t := by
  rcases step_cases s with ⟨-, idle⟩ | ⟨w, rest, -, serve⟩
  · exact ⟨s, idle⟩
  · obtain ⟨e, -, he⟩ := exec_cases (decode w) { s with requests := rest }
    exact ⟨_, serve.trans he⟩

/-- What every step keeps, a run of any length keeps. -/
theorem run_keeps {P : State → Prop} (keeps : ∀ s t, P s → step s = .next t → P t) (n : Nat) {s t : State} (hs : P s)
    (h : core.run n s = .next t) : P t := by
  induction n generalizing s with
  | zero =>
    obtain rfl := Host.Outcome.next.inj ((run_zero s).symm.trans h)
    exact hs
  | succ n ih =>
    obtain ⟨u, hu⟩ := exists_step_next s
    exact ih (keeps s u hs hu) ((run_succ n hu).symm.trans h)

/-- A run leaves the ROM as it was (20_memory.md R28). -/
theorem run_rom {n : Nat} {s t : State} (h : core.run n s = .next t) : t.rom = s.rom :=
  run_keeps (P := fun u => u.rom = s.rom) (fun _ _ same hstep => (step_rom hstep).trans same) n rfl h

/-- Settles O11: every step keeps the ROM, hence every run does, and a read depends on the ROM alone. -/
theorem romIsNeverWritten : Obligations.RomIsNeverWritten := by
  refine ⟨fun s t h => step_rom h, fun n s t h => ⟨run_rom h, fun addr k => ?_⟩⟩
  rw [run_rom h]

end Sys2Proof.Machine
end

section
/-! SUPPORT. The read primitive as a big-endian sum of bytes (20_memory.md R24, R25). -/

namespace Sys2Proof.Machine

/-- `memRead` inside its domain (20_memory.md R25). -/
theorem memRead_ok (m : Memory) {addr n : Nat} (pos : 1 ≤ n) (inside : addr + n ≤ 34) :
    memRead m addr n = .ok (m.bytesBE addr n) := by
  rcases memRead_cases m addr n with ⟨-, -, h⟩ | ⟨outside, -⟩
  · exact h
  · exact absurd ⟨pos, inside⟩ outside

/-- A read of one byte gives the cell at its address. -/
theorem memRead_one (m : Memory) {addr : Nat} (h : addr < 34) : memRead m addr 1 = .ok (m.cell addr).toNat := by
  rw [memRead_ok m (Nat.le_refl 1) h]
  simp

/-- A lookup is a word read at an even address (20_memory.md R25, 41_sine_table_rom.md R56). -/
theorem lookup_eq_memRead (m : Memory) {i : Nat} (h : i < 17) : lookup m i = memRead m (2 * i) 2 := if_pos h

/-- The running combination of `bytesBE` is the sum of the bytes, each at its place value (20_memory.md R25). -/
theorem Memory.bytesBE_eq_sum (m : Memory) (addr n : Nat) :
    m.bytesBE addr n = ((List.range n).map fun k => (m.cell (addr + k)).toNat * 256 ^ (n - 1 - k)).sum := by
  induction n with
  | zero => rfl
  | succ n ih =>
    have shift : ∀ k ∈ List.range n, (m.cell (addr + k)).toNat * 256 ^ (n + 1 - 1 - k) =
        (m.cell (addr + k)).toNat * 256 ^ (n - 1 - k) * 256 := by
      intro k hk
      have hk : k < n := List.mem_range.mp hk
      rw [Nat.mul_assoc, ← Nat.pow_succ, show n + 1 - 1 - k = (n - 1 - k).succ by omega]
    rw [Memory.bytesBE_succ, ih, List.range_succ, List.map_append, List.sum_append, List.map_congr_left shift,
      List.sum_map_mul_right]
    simp

/-- The high byte of an entry is the byte at the even address (20_memory.md R24). -/
theorem Memory.entry_div_256 (m : Memory) (i : Nat) : m.entry i / 256 = (m.cell (2 * i)).toNat := by
  have low := (m.cell (2 * i + 1)).isLt
  rw [Memory.entry_eq]
  omega

/-- The low byte of an entry is the byte at the odd address (20_memory.md R24). -/
theorem Memory.entry_mod_256 (m : Memory) (i : Nat) : m.entry i % 256 = (m.cell (2 * i + 1)).toNat := by
  have low := (m.cell (2 * i + 1)).isLt
  rw [Memory.entry_eq]
  omega

/-- The image packed from the table's words is the image that 20_memory.md R24 prints. -/
theorem romImage_eq_specImage : romImage = specImage := by decide

/-- No cell is listed after reset, so every byte is that of the printed image. -/
theorem reset_cell (addr : Nat) : State.reset.rom.cell addr = specImage.getD addr 0 := by
  rw [← romImage_eq_specImage]
  rfl

/-- Settles O16: an entry is 256 times its byte at the even address plus its byte at the odd one, and a byte is below
256; after reset the bytes are those of the printed image. -/
theorem packedImageLayout : Obligations.PackedImageLayout := by
  constructor
  · intro m i t hi ht
    obtain rfl := entry_of_lookup hi ht
    rw [memRead_one m (show 2 * i < 34 by omega), memRead_one m (show 2 * i + 1 < 34 by omega),
      m.entry_div_256, m.entry_mod_256]
    exact ⟨rfl, rfl⟩
  · intro k hk
    rw [memRead_one _ hk, reset_cell]

/-- Settles O17: the bytes `B k` are the cells from `addr` on, and `bytesBE` is their big-endian sum. -/
theorem memReadIsBigEndian : Obligations.MemReadIsBigEndian := by
  constructor
  · intro m addr n pos inside
    refine ⟨fun k => (m.cell (addr + k)).toNat, fun k hk => memRead_one m (by omega), ?_⟩
    rw [memRead_ok m pos inside, m.bytesBE_eq_sum]
  · exact fun m i hi => lookup_eq_memRead m (by omega)

end Sys2Proof.Machine
end

section
/-! SUPPORT. Bit 16 of a request word chooses the operation (30_encoding.md R40). -/

namespace Sys2Proof

/-- The mask of R40 keeps bit 16 of a request word alone. -/
theorem and_opMask (w : ReqWord) : w &&& 0x10000#17 = if w.getLsbD 16 then 0x10000#17 else 0#17 :=
  BitVec.and_twoPow w 16

theorem decode_of_bit_clear {w : ReqWord} (h : w.getLsbD 16 = false) : decode w = .sin (w.extractLsb' 0 16) := by
  rw [decode, h]
  rfl

theorem decode_of_bit_set {w : ReqWord} (h : w.getLsbD 16 = true) : decode w = .cos (w.extractLsb' 0 16) := by
  rw [decode, h]
  rfl

/-- Match and mask of SIN and of COS (30_encoding.md R40). -/
theorem match_mask_iff_decode (w : ReqWord) :
    (w &&& 0x10000#17 = 0x00000#17 ↔ ∃ a, decode w = .sin a) ∧
      (w &&& 0x10000#17 = 0x10000#17 ↔ ∃ a, decode w = .cos a) := by
  cases h : w.getLsbD 16 with
  | false =>
    rw [and_opMask, h, decode_of_bit_clear h]
    simp
  | true =>
    rw [and_opMask, h, decode_of_bit_set h]
    simp

theorem encode_sin_toNat (a : Angle) : (encode (.sin a)).toNat = a.toNat := by
  obtain ⟨-, -, value, -⟩ := Laws.EncodingFields.sin a
  simpa [Instr.op, Instr.angle] using value

theorem encode_cos_toNat (a : Angle) : (encode (.cos a)).toNat = 65536 + a.toNat := by
  obtain ⟨-, -, value, -⟩ := Laws.EncodingFields.cos a
  simpa [Instr.op, Instr.angle] using value

/-- Settles O2: the mask keeps the bit on which decoding branches, and the two fields of a word are its op and angle. -/
theorem opcodeMapMatchAndMask : Obligations.OpcodeMapMatchAndMask :=
  ⟨match_mask_iff_decode, fun a => ⟨rfl, encode_sin_toNat a, rfl, encode_cos_toNat a⟩⟩

end Sys2Proof
end

section
/-! SUPPORT. The bit-fields and the flags of an angle (40_angle_decomposer.md R48, R51, R52). -/

namespace Sys2Proof.Machine

/-- `extractBits` selects adjacent wires of the angle bus (40_angle_decomposer.md R48, R50). -/
theorem extractBits_eq_extractLsb' (v : Angle) {w o : Nat} (h : w + o ≤ 16) :
    extractBits v w o = .ok (v.extractLsb' o w).toNat := by
  rw [extractBits_ok v h, BitVec.extractLsb'_toNat, Nat.shiftRight_eq_div_pow]

/-- Settles O22: the field of wires, which as a number is the shifted word masked to its width. -/
theorem extractBitsTakesItsField : Obligations.ExtractBitsTakesItsField := by
  intro v w o h
  refine ⟨(v.extractLsb' o w).toNat, extractBits_eq_extractLsb' v h, ?_, ?_, rfl, fun k => ?_⟩
  · rw [BitVec.extractLsb'_toNat, Nat.shiftRight_eq_div_pow, Nat.and_two_pow_sub_one_eq_mod]
  · exact Nat.le_sub_one_of_lt (BitVec.isLt _)
  · rw [BitVec.testBit_toNat, BitVec.getLsbD_extractLsb']

/-- A mask of the low `w` bits is the remainder modulo `2 ^ w`. -/
theorem toNat_and_lowMask (a : Angle) {w : Nat} (hw : w ≤ 16) :
    (a &&& BitVec.ofNat 16 (2 ^ w - 1)).toNat = a.toNat % 2 ^ w := by
  have fits : 2 ^ w - 1 < 2 ^ 16 :=
    Nat.lt_of_lt_of_le (Nat.sub_one_lt_of_lt (Nat.two_pow_pos w)) (Nat.pow_le_pow_right (by decide) hw)
  rw [BitVec.toNat_and, BitVec.toNat_ofNat, Nat.mod_eq_of_lt fits, Nat.and_two_pow_sub_one_eq_mod]

/-- The mask form of the fraction (40_angle_decomposer.md R51). -/
theorem interpMask_toNat (a : Angle) : (a &&& 0x00FF).toNat = a.toNat % 256 :=
  toNat_and_lowMask a (w := 8) (by decide)

/-- The shift and mask form of the index (40_angle_decomposer.md R51). -/
theorem indexMask_toNat (a : Angle) : ((a >>> 8) &&& 0x000F).toNat = a.toNat / 256 % 16 := by
  have masked : ((a >>> 8) &&& 0x000F).toNat = (a >>> 8).toNat % 16 := toNat_and_lowMask (a >>> 8) (w := 4) (by decide)
  rw [masked, BitVec.toNat_ushiftRight, Nat.shiftRight_eq_div_pow]

/-- Settles O24: masks and remainders agree, and the two fields are those remainders. -/
theorem fractionAndIndexOfAnAngle : Obligations.FractionAndIndexOfAnAngle := by
  intro a
  rw [interpMask_toNat, indexMask_toNat]
  exact ⟨interpOf_eq a, indexOf_eq a, rfl, rfl⟩

/-- A bit of an angle as arithmetic on its value. -/
theorem getLsbD_eq_decide (a : Angle) (k : Nat) : a.getLsbD k = decide (a.toNat / 2 ^ k % 2 = 1) := by
  rw [BitVec.getLsbD, Nat.testBit_eq_decide_div_mod_eq]

/-- `fwd` is the complement of bit 12 (40_angle_decomposer.md R52). -/
theorem fwdFlag_eq_not_getLsbD (a : Angle) : fwdFlag a = !a.getLsbD 12 := by
  rw [fwdFlag_eq, getLsbD_eq_decide, ← decide_not]
  exact decide_eq_decide.mpr Nat.mod_two_not_eq_one.symm

/-- `neg` is bit 13 (40_angle_decomposer.md R52). -/
theorem negFlag_eq_getLsbD (a : Angle) : negFlag a = a.getLsbD 13 :=
  (negFlag_eq a).trans (getLsbD_eq_decide a 13).symm

/-- Settles O25: each flag is a test of its mask, and the mask selects one bit. -/
theorem quadrantFlagsOfAnAngle : Obligations.QuadrantFlagsOfAnAngle := by
  intro a
  refine ⟨beq_iff_eq, ?_, bne_iff_ne, ?_⟩
  · rw [fwdFlag_eq_not_getLsbD, Bool.not_eq_true']
  · rw [negFlag_eq_getLsbD]

end Sys2Proof.Machine
end

section
/-! SUPPORT. The entries of a table that meets the contract, and the lookup of them (41_sine_table_rom.md R56, R57). -/

namespace Sys2Proof.Machine

/-- Entries rise to the last one, so the amplitude bounds them all (10_state.md R12, 41_sine_table_rom.md R56). -/
theorem MeetsContract.entry_le {m : Memory} (h : MeetsContract m) {i : Nat} (hi : i ≤ 16) : m.entry i ≤ 32767 := by
  obtain ⟨-, last, rising⟩ := (meetsContract_iff m).mp h
  calc m.entry i ≤ m.entry 16 := table_mono m.entry rising hi (Nat.le_refl 16)
    _ = 32767 := last

/-- Settles O19: on the table a lookup is a word read that gives the entry, which is a 16-bit number and under the
contract no more than the last entry; above the table it is the fault. -/
theorem lookupOnAndAboveTheTable : Obligations.LookupOnAndAboveTheTable := by
  intro m index
  constructor
  · intro onTable
    have implemented : index < 17 := Nat.lt_succ_of_le onTable
    have value : lookup m index = .ok (m.entry index) := lookup_ok m implemented
    have read : memRead m (2 * index) 2 = .ok (m.entry index) := (lookup_eq_memRead m implemented).symm.trans value
    exact ⟨m.entry index, value, read, m.entry_lt index, fun contract => contract.entry_le onTable⟩
  · exact fun above => lookup_error m above

end Sys2Proof.Machine
end

section
/-! SUPPORT. The steps of the sine path in the terms of 42_sine_engine.md R68: bits 12 and 13, and a table `T`. -/

namespace Sys2Proof.Machine

/-- Bit 12 is clear where the table is read forward (40_angle_decomposer.md R52). -/
theorem bit12_clear_iff (a : Angle) : (a.getLsbD 12 == false) = true ↔ a.toNat / 4096 % 2 = 0 := by
  rw [beq_false, ← fwdFlag_eq_not_getLsbD, fwdFlag_eq, decide_eq_true_iff]

/-- Bit 13 is set where the result is negated (40_angle_decomposer.md R52). -/
theorem bit13_set_iff (a : Angle) : (a.getLsbD 13 == true) = true ↔ a.toNat / 8192 % 2 = 1 := by
  rw [beq_true, ← negFlag_eq_getLsbD, negFlag_eq, decide_eq_true_iff]

/-- What SIN answers over a table that meets the contract: the sine is in range, so it has its 16-bit pattern
(00_scope.md R6, 42_sine_engine.md R67). -/
theorem exec_sin_of_table (s : State) (T : Nat → Nat) (a : Angle) (look : ∀ i, i < 17 → lookup s.rom i = .ok (T i))
    (last : T 16 = 32767) (rising : ∀ i, i < 16 → T i ≤ T (i + 1)) :
    exec (.sin a) s = .next (s.respond (BitVec.ofInt 16 (sineValue T a.toNat))) := by
  have table : sineValue s.rom.entry a.toNat = sineValue T a.toNat :=
    sineValue_congr (fun i hi => entry_of_lookup hi (look i hi)) a.toNat
  obtain ⟨lo, hi⟩ := sineValue_bounds T rising last a.toNat
  rw [exec_sin, table, respPattern_of_range _ (by omega) (by omega)]

/-- Settles O33: step 3 gives the effective index, step 6 the magnitude and step 7 the sine over `T`. -/
theorem sinExecutesItsPseudocode : Obligations.SinExecutesItsPseudocode := by
  intro s T angle look _ last rising interp index fwd neg idx x1 x2 d approx mag sine
  have hfwd : fwd = true ↔ angle.toNat / 4096 % 2 = 0 := bit12_clear_iff angle
  have hneg : neg = true ↔ angle.toNat / 8192 % 2 = 1 := bit13_set_iff angle
  have hidx : idx = effIndex angle.toNat := if_congr hfwd rfl rfl
  have happrox : approx = segmentDelta T (effIndex angle.toNat) interp := by
    rw [← hidx]
    rfl
  have hmag : mag = sineMagnitude T angle.toNat := by
    refine if_congr hfwd ?_ ?_ <;> rw [← happrox, ← hidx]
  have hsine : sine = sineValue T angle.toNat := by
    rw [sineValue, ← hmag]
    exact if_congr hneg rfl rfl
  rw [hsine]
  exact exec_sin_of_table s T angle look last rising

end Sys2Proof.Machine
end

section
/-! SUPPORT. The block's sine and cosine over a table that meets the contract, their range and their values at the
sample points (44_laws.md R77, R78, R79, R83). -/

namespace Sys2Proof.Machine

theorem angle_toNat_ofNat {a : Nat} (ha : a < 65536) : (BitVec.ofNat 16 a).toNat = a := by
  rw [BitVec.toNat_ofNat]
  exact Nat.mod_eq_of_lt ha

/-- The range of a result under the contract (44_laws.md R77). -/
theorem MeetsContract.sineValue_range {m : Memory} (h : MeetsContract m) (a : Nat) :
    -32767 ≤ sineValue m.entry a ∧ sineValue m.entry a ≤ 32767 := by
  obtain ⟨-, last, rising⟩ := (meetsContract_iff m).mp h
  exact sineValue_bounds m.entry rising last a

/-- Under the contract the result of SIN always has a 16-bit pattern. -/
theorem MeetsContract.answers_sin {s : State} (h : MeetsContract s.rom) (a : Angle) :
    Answers s (.sin a) (sineValue s.rom.entry a.toNat) := by
  obtain ⟨lo, hi⟩ := h.sineValue_range a.toNat
  exact Machine.answers_sin s a rfl (by omega) (by omega)

/-- Under the contract the result of COS always has a 16-bit pattern. -/
theorem MeetsContract.answers_cos {s : State} (h : MeetsContract s.rom) (a : Angle) :
    Answers s (.cos a) (sineValue s.rom.entry ((a.toNat + 4096) % 16384)) := by
  obtain ⟨lo, hi⟩ := h.sineValue_range ((a.toNat + 4096) % 16384)
  exact Machine.answers_cos s a rfl (by omega) (by omega)

theorem MeetsContract.sineOf {s : State} (h : MeetsContract s.rom) : SineOf s (sineValue s.rom.entry) := by
  intro a ha
  have answer := h.answers_sin (BitVec.ofNat 16 a)
  rwa [angle_toNat_ofNat ha] at answer

theorem MeetsContract.cosineOf {s : State} (h : MeetsContract s.rom) :
    CosineOf s fun a => sineValue s.rom.entry ((a + 4096) % 16384) := by
  intro a ha
  have answer := h.answers_cos (BitVec.ofNat 16 a)
  rwa [angle_toNat_ofNat ha] at answer

/-- The index of the entry that a sample point reads: an angle whose fraction is 0. -/
def sampleIndex (a : Nat) : Nat := if a / 4096 % 2 = 0 then a / 256 % 16 else 16 - a / 256 % 16

/-- At a sample point nothing is interpolated, so the magnitude is an entry (44_laws.md R83). -/
theorem sineMagnitude_sample (T : Nat → Nat) {a : Nat} (sample : a % 256 = 0) : sineMagnitude T a = T (sampleIndex a) := by
  have delta : ∀ i, segmentDelta T i 0 = 0 := fun i => by simp [segmentDelta]
  unfold sineMagnitude sampleIndex effIndex
  rw [sample]
  split
  · rw [delta, Int.add_zero]
  · rw [delta, Int.sub_zero, show 15 - a / 256 % 16 + 1 = 16 - a / 256 % 16 by omega]

/-- The sine at a sample point is an entry with the half-circle's sign (44_laws.md R83). -/
theorem sineValue_sample (T : Nat → Nat) {a : Nat} (sample : a % 256 = 0) :
    sineValue T a = if a / 8192 % 2 = 1 then -(T (sampleIndex a) : Int) else T (sampleIndex a) := by
  rw [sineValue, sineMagnitude_sample T sample]

/-- The four quadrant boundaries (44_laws.md R78). -/
theorem sineValue_boundaries (T : Nat → Nat) (first : T 0 = 0) (last : T 16 = 32767) :
    sineValue T 0 = 0 ∧ sineValue T 4096 = 32767 ∧ sineValue T 8192 = 0 ∧ sineValue T 12288 = -32767 := by
  refine ⟨?_, ?_, ?_, ?_⟩ <;> rw [sineValue_sample T (by decide)] <;> simp [sampleIndex, first, last]

/-- A result in the range of 44_laws.md R77 never goes out as 0x8000, the pattern of -32768. -/
theorem respPattern_ne_min {z : Int} (lo : -32767 ≤ z) (hi : z ≤ 32767) : respPattern z ≠ 0x8000#16 := by
  intro min
  have value := respPattern_toInt z (by omega) (by omega)
  have least : (0x8000#16).toInt = -32768 := by decide
  rw [min, least] at value
  omega

/-- Under the contract no operation gives the response 0x8000 (30_encoding.md R38). -/
theorem MeetsContract.response_ne_min {i : Instr} {s t : State} {p : RespWord} (h : MeetsContract s.rom)
    (next : exec i s = .next t) (response : t.responses = s.responses ++ [p]) : p ≠ 0x8000#16 := by
  obtain ⟨e, -, he⟩ := exec_cases i s
  obtain rfl := Host.Outcome.next.inj (he.symm.trans next)
  obtain ⟨lo, hi⟩ := h.sineValue_range e
  have given : respPattern (sineValue s.rom.entry e) = p := by
    rw [State.respond_responses] at response
    exact List.singleton_inj.mp (List.append_cancel_left response)
  rw [← given]
  exact respPattern_ne_min lo hi

/-- Settles O41: both functions are the sine over the ROM's entries, whose magnitude the last entry bounds; the bounds are
attained at the peak and at the trough, where that entry is read. -/
theorem rangeOfResults : Obligations.RangeOfResults := by
  intro s h
  obtain ⟨first, last, -⟩ := (meetsContract_iff s.rom).mp h
  obtain ⟨-, peak, -, trough⟩ := sineValue_boundaries s.rom.entry first last
  refine ⟨_, _, h.sineOf, h.cosineOf, fun a _ => ?_, peak, trough, fun i t p => h.response_ne_min⟩
  obtain ⟨sinLo, sinHi⟩ := h.sineValue_range a
  obtain ⟨cosLo, cosHi⟩ := h.sineValue_range ((a + 4096) % 16384)
  exact ⟨sinLo, sinHi, cosLo, cosHi⟩

/-- Settles O42: SIN at the four boundaries, and COS at the same four one quadrant earlier. -/
theorem quadrantBoundaries : Obligations.QuadrantBoundaries := by
  intro s h
  obtain ⟨first, last, -⟩ := (meetsContract_iff s.rom).mp h
  obtain ⟨zero, peak, middle, trough⟩ := sineValue_boundaries s.rom.entry first last
  exact ⟨zero ▸ h.answers_sin 0, peak ▸ h.answers_sin 4096, middle ▸ h.answers_sin 8192, trough ▸ h.answers_sin 12288,
    peak ▸ h.answers_cos 0, middle ▸ h.answers_cos 4096, trough ▸ h.answers_cos 8192, zero ▸ h.answers_cos 12288⟩

/-- The table of 10_state.md R11 as a function of the index. -/
def specEntry (i : Nat) : Nat := specTable.getD i 0

theorem specEntry_rising : ∀ i, i < 16 → specEntry i ≤ specEntry (i + 1) := by decide

/-- The table of 10_state.md R11 meets the contract of 10_state.md R12. -/
theorem HoldsTable.meetsContract {m : Memory} (h : HoldsTable m) : MeetsContract m :=
  ⟨specEntry, h, rfl, rfl, specEntry_rising⟩

/-- Settles O48: the quadrant boundaries, and the middle of a quadrant, where SIN and COS read entry 8. -/
theorem concreteScenarios : Obligations.ConcreteScenarios := by
  intro s h
  obtain ⟨zero, peak, -, -, cosZero, -⟩ := quadrantBoundaries s h.meetsContract
  have entry : s.rom.entry 8 = 23170 := h.entry (by decide)
  obtain ⟨sin, cos⟩ : sineValue s.rom.entry 2048 = 23170 ∧ sineValue s.rom.entry 6144 = 23170 := by
    constructor <;> rw [sineValue_sample _ (by decide)] <;> simp [sampleIndex, entry]
  exact ⟨zero, peak, sin ▸ h.meetsContract.answers_sin 2048, cosZero, cos ▸ h.meetsContract.answers_cos 2048⟩

end Sys2Proof.Machine
end

section
/-! SUPPORT. Odd symmetry to one unit (44_laws.md R81): the two truncations of a segment lose one unit together where its
interpolation is not exact. -/

namespace Sys2Proof.Machine

/-- The height of segment `i` of a table. -/
def segmentHeight (T : Nat → Nat) (i : Nat) : Nat := T (i + 1) - T i

/-- The interpolation product at the angle `a` is a multiple of 256: nothing is truncated. -/
abbrev InterpolatesExactly (T : Nat → Nat) (a : Nat) : Prop := 256 ∣ segmentHeight T (effIndex a) * (a % 256)

/-- What odd symmetry would make 0 (44_laws.md R81). -/
def oddSum (T : Nat → Nat) (a : Nat) : Int := sineValue T a + sineValue T (16384 - a)

/-- The side to which odd symmetry misses: 1 in the two middle quadrants, -1 in the two outer ones. -/
def oddSumSide (a : Nat) : Int := if (a + 4096) / 8192 % 2 = 1 then 1 else -1

/-- Truncating a part of a height and the rest of it loses one unit, or nothing where the division is exact. -/
theorem truncated_parts_add (d f : Nat) (hf : f ≤ 256) :
    d * f / 256 + d * (256 - f) / 256 + (if 256 ∣ d * f then 0 else 1) = d := by
  have whole : d * f + d * (256 - f) = d * 256 := by rw [← Nat.mul_add, Nat.add_sub_of_le hf]
  split <;> omega

/-- The interpolated deltas of a rising segment, up to a point and from there on. -/
theorem segmentDelta_add_rest (T : Nat → Nat) (i f : Nat) (rising : T i ≤ T (i + 1)) (pos : 0 < f) (hf : f < 256) :
    segmentDelta T i f + segmentDelta T i (256 - f) + (if 256 ∣ segmentHeight T i * f then 0 else 1) =
      (T (i + 1) : Int) - T i := by
  obtain ⟨upTo, -⟩ := segmentDelta_bounds T i f rising hf
  obtain ⟨rest, -⟩ := segmentDelta_bounds T i (256 - f) rising (by omega)
  rw [upTo, rest, ← Nat.cast_sub rising]
  exact_mod_cast truncated_parts_add (segmentHeight T i) f (by omega)

/-- The reflected sample point has the same entry and the other sign, or both have entry 0. -/
theorem sampleIndex_reflected {a : Nat} (ha : a ≤ 16384) (sample : a % 256 = 0) :
    sampleIndex (16384 - a) = sampleIndex a ∧
      (sampleIndex a = 0 ∨ (16384 - a) / 8192 % 2 = 1 - a / 8192 % 2) := by
  unfold sampleIndex
  split <;> split <;> omega

/-- Odd symmetry is exact at the sample points (44_laws.md R81). -/
theorem oddSum_sample (T : Nat → Nat) (first : T 0 = 0) {a : Nat} (ha : a ≤ 16384) (sample : a % 256 = 0) :
    oddSum T a = 0 := by
  obtain ⟨index, zero | sign⟩ := sampleIndex_reflected ha sample
  · simp [oddSum, sineValue_sample T sample, sineValue_sample T (a := 16384 - a) (by omega), index, zero, first]
  · rw [oddSum, sineValue_sample T sample, sineValue_sample T (a := 16384 - a) (by omega), index, sign]
    split <;> split <;> omega

/-- Between sample points the reflected angle reads the same segment from its other end, with the other sign. -/
theorem reflected_fields {a : Nat} (ha : a ≤ 16384) (between : 0 < a % 256) :
    effIndex (16384 - a) = effIndex a ∧ (16384 - a) % 256 = 256 - a % 256 ∧
      (16384 - a) / 4096 % 2 = 1 - a / 4096 % 2 ∧ (16384 - a) / 8192 % 2 = 1 - a / 8192 % 2 := by
  refine ⟨?_, by omega, by omega, by omega⟩
  unfold effIndex
  split <;> split <;> omega

section
variable (T : Nat → Nat) (first : T 0 = 0) (rising : ∀ i, i < 16 → T i ≤ T (i + 1))
include first rising

/-- Odd symmetry over a rising table: exact where the interpolation is, and elsewhere one unit off. -/
theorem oddSum_eq {a : Nat} (ha : a ≤ 16384) :
    oddSum T a = if InterpolatesExactly T a then 0 else oddSumSide a := by
  rcases Nat.eq_zero_or_pos (a % 256) with sample | between
  · have untruncated : InterpolatesExactly T a := by simp [InterpolatesExactly, sample]
    rw [oddSum_sample T first ha sample, if_pos untruncated]
  · obtain ⟨index, fraction, direction, sign⟩ := reflected_fields ha between
    have le := effIndex_le a
    have deltas := segmentDelta_add_rest T (effIndex a) (a % 256) (rising _ (by omega)) between (by omega)
    simp only [oddSum, sineValue, sineMagnitude, oddSumSide, index, fraction, direction, sign]
    by_cases untruncated : InterpolatesExactly T a
    · rw [if_pos untruncated] at deltas ⊢
      split_ifs <;> omega
    · rw [if_neg untruncated] at deltas ⊢
      split_ifs <;> omega

/-- The law of 44_laws.md R81. -/
theorem oddSum_bounds {a : Nat} (ha : a ≤ 16384) :
    -1 ≤ oddSum T a ∧ oddSum T a ≤ 1 := by
  rw [oddSum_eq T first rising ha, oddSumSide]
  split_ifs <;> decide

end

end Sys2Proof.Machine
end

section
/-! SUPPORT. The counts of 44_laws.md R81, segment by segment. -/

namespace Sys2Proof.Machine

/-- A count over whole blocks is the sum of the counts in the blocks. -/
theorem count_mul_eq_sum (p : Nat → Prop) [DecidablePred p] (m n : Nat) :
    Nat.count p (m * n) = ∑ k ∈ Finset.range n, Nat.count (fun j => p (m * k + j)) m := by
  induction n with
  | zero => simp
  | succ n ih => rw [Nat.mul_succ, Nat.count_add, ih, Finset.sum_range_succ]

theorem dvd_mul_iff_div_gcd_dvd {n : Nat} (hn : 0 < n) (d f : Nat) : n ∣ d * f ↔ n / n.gcd d ∣ f := by
  constructor
  · intro h
    exact (Nat.modEq_zero_iff_dvd).mp (Nat.ModEq.cancel_left_div_gcd hn ((Nat.modEq_zero_iff_dvd).mpr h))
  · intro h
    calc n = n.gcd d * (n / n.gcd d) := (Nat.mul_div_cancel' (Nat.gcd_dvd_left n d)).symm
      _ ∣ d * f := Nat.mul_dvd_mul (Nat.gcd_dvd_right n d) h

/-- Of the first `n` multiples of `d`, `gcd n d` are multiples of `n`. -/
theorem count_dvd_mul {n : Nat} (hn : 0 < n) (d : Nat) : Nat.count (fun f => n ∣ d * f) n = n.gcd d := by
  have step : 0 < n / n.gcd d := Nat.div_pos (Nat.gcd_le_left d hn) (Nat.gcd_pos_of_pos_left d hn)
  have counted := Nat.count_modEq_card n step 0
  have whole : n % (n / n.gcd d) = 0 := Nat.mod_eq_zero_of_dvd (Nat.div_dvd_of_dvd (Nat.gcd_dvd_left n d))
  rw [whole, Nat.div_div_self (Nat.gcd_dvd_left n d) hn.ne'] at counted
  simp only [dvd_mul_iff_div_gcd_dvd hn, ← Nat.modEq_zero_iff_dvd]
  simpa using counted

theorem count_not_dvd_mul {n : Nat} (hn : 0 < n) (d : Nat) : Nat.count (fun f => ¬ n ∣ d * f) n = n - n.gcd d := by
  have all := Finset.card_filter_add_card_filter_not (s := Finset.range n) fun f => n ∣ d * f
  rw [← Nat.count_eq_card_filter_range, ← Nat.count_eq_card_filter_range, count_dvd_mul hn, Finset.card_range] at all
  omega

theorem count_congr {p q : Nat → Prop} [DecidablePred p] [DecidablePred q] {n : Nat} (h : ∀ k, k < n → (p k ↔ q k)) :
    Nat.count p n = Nat.count q n :=
  Nat.le_antisymm (Nat.count_mono_left fun k hk => (h k hk).mp) (Nat.count_mono_left fun k hk => (h k hk).mpr)

/-- Counting from 1 leaves out the number 0. -/
theorem countP_range'_one (q : Nat → Bool) (n : Nat) :
    (List.range' 1 n).countP q + (q 0).toNat = Nat.count (fun a => q a = true) (n + 1) := by
  rw [Nat.count_succ', List.range'_eq_map_range, List.countP_map, Nat.count]
  simp [Function.comp_def, Nat.add_comm, Bool.toNat, Bool.cond_eq_ite]

/-- How often the sum is `c` in the segment of angles from `256 * k` on. -/
def segmentCount (T : Nat → Nat) (c : Int) (k : Nat) : Nat :=
  if c = 0 then Nat.gcd 256 (segmentHeight T (effIndex (256 * k)))
  else if oddSumSide (256 * k) = c then 256 - Nat.gcd 256 (segmentHeight T (effIndex (256 * k)))
  else 0

theorem oddSumSide_ne_zero (a : Nat) : oddSumSide a ≠ 0 := by
  unfold oddSumSide
  split <;> decide

section
variable (T : Nat → Nat) (first : T 0 = 0) (rising : ∀ i, i < 16 → T i ≤ T (i + 1))
include first rising

/-- Odd symmetry in the segment of angles from `256 * k` on. -/
theorem oddSum_segment {k j : Nat} (hk : k < 64) (hj : j < 256) :
    oddSum T (256 * k + j) =
      if 256 ∣ segmentHeight T (effIndex (256 * k)) * j then 0 else oddSumSide (256 * k) := by
  have fraction : (256 * k + j) % 256 = j := by omega
  have side : oddSumSide (256 * k + j) = oddSumSide (256 * k) := by
    unfold oddSumSide
    rw [show (256 * k + j + 4096) / 8192 = (256 * k + 4096) / 8192 by omega]
  have index : effIndex (256 * k + j) = effIndex (256 * k) := by
    unfold effIndex
    rw [show (256 * k + j) / 256 = 256 * k / 256 by omega, show (256 * k + j) / 4096 = 256 * k / 4096 by omega]
  rw [oddSum_eq T first rising (by omega)]
  simp only [InterpolatesExactly, fraction, index, side]

theorem count_segment (c : Int) {k : Nat} (hk : k < 64) :
    Nat.count (fun j => oddSum T (256 * k + j) = c) 256 = segmentCount T c k := by
  have side := oddSumSide_ne_zero (256 * k)
  unfold segmentCount
  split_ifs with zero same
  · rw [← count_dvd_mul (by decide)]
    refine count_congr fun j hj => ?_
    rw [oddSum_segment T first rising hk hj, zero]
    simp [side]
  · rw [← count_not_dvd_mul (by decide)]
    refine count_congr fun j hj => ?_
    rw [oddSum_segment T first rising hk hj, same]
    simp [Ne.symm zero]
  · rw [Nat.count_iff_forall_not]
    intro j hj
    rw [oddSum_segment T first rising hk hj]
    split
    · exact Ne.symm zero
    · exact same

/-- How often the sum is `c` all round the circle. -/
theorem count_oddSum (c : Int) :
    Nat.count (fun a => oddSum T a = c) 16384 = ∑ k ∈ Finset.range 64, segmentCount T c k := by
  rw [show 16384 = 256 * 64 by decide, count_mul_eq_sum]
  exact Finset.sum_congr rfl fun k hk => count_segment T first rising c (Finset.mem_range.mp hk)

/-- The count of 44_laws.md R81 for the sum `c`: the angle 0, which it leaves out, has the sum 0. -/
theorem countP_oddSum (c : Int) :
    (List.range' 1 16383).countP (fun a => oddSum T a == c) + (0 == c).toNat =
      ∑ k ∈ Finset.range 64, segmentCount T c k := by
  have atZero : oddSum T 0 = 0 := oddSum_sample T first (by decide) (by decide)
  have counted := countP_range'_one (fun a => oddSum T a == c) 16383
  simp only [atZero, beq_iff_eq] at counted
  exact counted.trans (count_oddSum T first rising c)

/-- The count of 44_laws.md R81 for the sum 0, which the angle 0 would add to. -/
theorem countP_oddSum_zero :
    (List.range' 1 16383).countP (fun a => oddSum T a == 0) = ∑ k ∈ Finset.range 64, segmentCount T 0 k - 1 := by
  have counted := countP_oddSum T first rising 0
  rw [beq_self_eq_true, Bool.toNat_true] at counted
  exact Nat.eq_sub_of_add_eq counted

/-- The count of 44_laws.md R81 for a sum other than 0. -/
theorem countP_oddSum_of_ne_zero {c : Int} (hc : c ≠ 0) :
    (List.range' 1 16383).countP (fun a => oddSum T a == c) = ∑ k ∈ Finset.range 64, segmentCount T c k := by
  have counted := countP_oddSum T first rising c
  rwa [beq_eq_false_iff_ne.mpr hc.symm, Bool.toNat_false, Nat.add_zero] at counted

end

theorem HoldsTable.sineOf_specEntry {s : State} (h : HoldsTable s.rom) : SineOf s (sineValue specEntry) := by
  have same : sineValue s.rom.entry = sineValue specEntry := funext (sineValue_congr fun i hi => h.entry hi)
  exact same ▸ h.meetsContract.sineOf

/-- The three counts of 44_laws.md R81, added up over the 64 segments. -/
theorem sum_segmentCount_specEntry :
    ∑ k ∈ Finset.range 64, segmentCount specEntry 0 k = 124 ∧ ∑ k ∈ Finset.range 64, segmentCount specEntry 1 k = 8130 ∧
      ∑ k ∈ Finset.range 64, segmentCount specEntry (-1) k = 8130 := by decide

/-- Settles O44: a sum is 0 where the interpolation of its segment is exact and one unit off elsewhere; the angles of each
kind are counted segment by segment. -/
theorem oddSymmetryWithinOneUnit : Obligations.OddSymmetryWithinOneUnit := by
  intro s h
  obtain ⟨level, above, below⟩ := sum_segmentCount_specEntry
  have zero := countP_oddSum_zero specEntry rfl specEntry_rising
  have nonzero {c : Int} (hc : c ≠ 0) := countP_oddSum_of_ne_zero specEntry rfl specEntry_rising hc
  rw [level] at zero
  refine ⟨sineValue specEntry, h.sineOf_specEntry, fun a _ ha => ?_, zero, (nonzero (by decide)).trans above,
    (nonzero (by decide)).trans below, fun k _ hk => ?_, ?_, ?_⟩
  · exact oddSum_bounds specEntry rfl specEntry_rising (by omega)
  · exact oddSum_sample specEntry rfl (by omega) (by omega)
  · decide
  · decide

end Sys2Proof.Machine
end

section
/-! SUPPORT. Request words and operations correspond one to one (30_encoding.md R40, R46). -/

namespace Sys2Proof

/-- The operand field of a request word as arithmetic on the word's value (30_encoding.md R37). -/
theorem operandField_eq (w : ReqWord) : w.extractLsb' 0 16 = BitVec.ofNat 16 (w.toNat % 65536) := by
  apply BitVec.eq_of_toNat_eq
  simp

/-- The operation bit of a request word as arithmetic on the word's value (30_encoding.md R37). -/
theorem opBit_eq (w : ReqWord) : w.getLsbD 16 = decide (w.toNat / 65536 % 2 = 1) := by
  rw [BitVec.getLsbD, Nat.testBit_eq_decide_div_mod_eq]

/-- Decode in arithmetic: bit 16 chooses the operation, the rest of the word is the operand (30_encoding.md R46). -/
theorem decode_eq (w : ReqWord) : decode w =
    if w.toNat / 65536 % 2 = 0 then .sin (BitVec.ofNat 16 (w.toNat % 65536))
    else .cos (BitVec.ofNat 16 (w.toNat % 65536)) := by
  cases bit : w.getLsbD 16 with
  | false =>
    have clear : ¬ w.toNat / 65536 % 2 = 1 := of_decide_eq_false ((opBit_eq w).symm.trans bit)
    rw [decode_of_bit_clear bit, operandField_eq, if_pos (by omega)]
  | true =>
    have set : w.toNat / 65536 % 2 = 1 := of_decide_eq_true ((opBit_eq w).symm.trans bit)
    rw [decode_of_bit_set bit, operandField_eq, if_neg (by omega)]

theorem encode_toNat (i : Instr) : (encode i).toNat = i.op.toNat * 65536 + i.angle.toNat := by
  obtain ⟨-, -, value⟩ := Laws.EncodingFields.fields_of_append i.op i.angle
  rw [Nat.mul_comm]
  exact value

theorem decode_encode (i : Instr) : decode (encode i) = i := by
  cases i with
  | sin a =>
    have operand := a.isLt
    rw [decode_eq, encode_sin_toNat, if_pos (by omega), Nat.mod_eq_of_lt operand, BitVec.ofNat_toNat,
      BitVec.setWidth_eq]
  | cos a =>
    have operand := a.isLt
    rw [decode_eq, encode_cos_toNat, if_neg (by omega), Nat.add_mod_left, Nat.mod_eq_of_lt operand, BitVec.ofNat_toNat,
      BitVec.setWidth_eq]

theorem encode_decode (w : ReqWord) : encode (decode w) = w := by
  have word := w.isLt
  apply BitVec.eq_of_toNat_eq
  rw [decode_eq]
  split
  · rw [encode_sin_toNat, BitVec.toNat_ofNat]
    omega
  · rw [encode_cos_toNat, BitVec.toNat_ofNat]
    omega

/-- Settles O1: op and operand are quotient and remainder of a word by 65536, and a word is determined by the two. -/
theorem decodeAndEncodeAreInverse : Obligations.DecodeAndEncodeAreInverse :=
  ⟨decode_eq, encode_toNat, decode_encode, encode_decode⟩

/-- Settles O3: each word is the encoding of its request, and decoding undoes encoding. -/
theorem specWordsDecodeToTheirRequests : Obligations.SpecWordsDecodeToTheirRequests :=
  ⟨decode_encode (.sin 3967), decode_encode (.sin 65535), decode_encode (.sin 49852), decode_encode (.cos 15000),
    decode_encode (.cos 0), decode_encode (.cos 65535)⟩

/-- A number that fits a request word decodes as that word (30_encoding.md R43). -/
theorem decodeNat_ok {w : Nat} (h : w < 131072) : decodeNat w = .ok (decode (BitVec.ofNat 17 w)) := if_pos h

/-- Settles O4: a number below 2^17 is the encoding of SIN or of COS, and a longer one is no request word. -/
theorem numbersOfSeventeenBitsDecode : Obligations.NumbersOfSeventeenBitsDecode := by
  intro w
  have value : w < 131072 → (BitVec.ofNat 17 w).toNat = w := fun h => Nat.mod_eq_of_lt h
  refine ⟨fun sin => ?_, fun op cos => ?_, fun long => if_neg (Nat.not_lt.mpr long)⟩
  · rw [decodeNat_ok (by omega), decode_eq, value (by omega), if_pos (by omega), Nat.mod_eq_of_lt sin]
  · rw [decodeNat_ok cos, decode_eq, value cos, if_neg (by omega), show w % 65536 = w - 65536 by omega]

end Sys2Proof
end

section
/-! SUPPORT. The response of an operation, and the step and the run that give it (10_state.md R20,
70_reset_and_hazards.md R111, R112). -/

namespace Sys2Proof.Machine

/-- The angle that enters the sine path (42_sine_engine.md R68, 43_cosine_adapter.md R74). -/
def pathAngle : Instr → Nat
  | .sin a => a.toNat
  | .cos a => (a.toNat + 4096) % 16384

/-- The response that an operation gets over a ROM, in whatever state (10_state.md R20). -/
def responseOf (m : Memory) (i : Instr) : RespWord := respPattern (sineValue m.entry (pathAngle i))

/-- The one thing an operation does: it gives its response. -/
theorem exec_eq (i : Instr) (s : State) : exec i s = .next (s.respond (responseOf s.rom i)) := by
  cases i with
  | sin a => exact exec_sin a s
  | cos a => exact exec_cos a s

/-- The state after an operation is the state with its response. -/
theorem eq_respond_of_exec {i : Instr} {s t : State} (h : exec i s = .next t) : t = s.respond (responseOf s.rom i) :=
  Host.Outcome.next.inj (h.symm.trans (exec_eq i s))

theorem answers_response (s : State) (i : Instr) : Answers s i (responseOf s.rom i).toInt :=
  ⟨responseOf s.rom i, exec_eq i s, rfl⟩

/-- A response depends on the 17 entries and on nothing else of a ROM. -/
theorem responseOf_congr {m m' : Memory} (same : ∀ k, k < 17 → lookup m k = lookup m' k) (i : Instr) :
    responseOf m i = responseOf m' i := by
  have entries : ∀ k, k < 17 → m.entry k = m'.entry k := fun k hk =>
    entry_of_lookup hk ((same k hk).trans (lookup_ok m' hk))
  rw [responseOf, responseOf, sineValue_congr entries]

/-- Settles O9: both states answer the response over their ROM, and the entries of the two ROMs are the same. -/
theorem responseDependsOnRequestAndRomOnly : Obligations.ResponseDependsOnRequestAndRomOnly := by
  intro s t i same
  refine ⟨(responseOf s.rom i).toInt, answers_response s i, ?_⟩
  rw [responseOf_congr same]
  exact answers_response t i

/-- Settles O10: the state after an operation differs from the one before in one more response. -/
theorem frameOfSinAndCos : Obligations.FrameOfSinAndCos := by
  intro s t i h
  obtain rfl := eq_respond_of_exec h
  exact ⟨rfl, fun _ _ => rfl, rfl, responseOf s.rom i, rfl⟩

/-- A step with a request presented runs the operation that it decodes to (70_reset_and_hazards.md R111). -/
theorem step_of_request {s : State} {w : ReqWord} {rest : List ReqWord} (h : s.requests = w :: rest) :
    step s = exec (decode w) { s with requests := rest } := by
  rcases step_cases s with ⟨none, -⟩ | ⟨v, tail, head, serve⟩
  · exact absurd (none.symm.trans h) (List.cons_ne_nil w rest).symm
  · obtain ⟨rfl, rfl⟩ := List.cons.inj (h.symm.trans head)
    exact serve

/-- A step without a request changes nothing (log 1). -/
theorem step_idle {s : State} (h : s.requests = []) : step s = .next s := by
  rcases step_cases s with ⟨-, idle⟩ | ⟨w, rest, head, -⟩
  · exact idle
  · exact absurd (head.symm.trans h) (List.cons_ne_nil w rest)

/-- Settles O6: the two kinds of step, and decoding undoes encoding. -/
theorem stepRunsTheDecodedRequest : Obligations.StepRunsTheDecodedRequest := by
  refine ⟨fun s w rest h => step_of_request h, fun s i rest h => ?_, fun s h => step_idle h⟩
  rw [step_of_request h, decode_encode]

/-- A request is served by its response (60_exceptions.md R91). -/
theorem step_eq_respond {s : State} {w : ReqWord} {rest : List ReqWord} (h : s.requests = w :: rest) :
    step s = .next (State.respond { s with requests := rest } (responseOf s.rom (decode w))) :=
  (step_of_request h).trans (exec_eq _ _)

/-- Settles O7: a request is served by its response, and every step answers a next state. -/
theorem everyRequestWordIsAnswered : Obligations.EveryRequestWordIsAnswered := by
  intro s
  obtain ⟨t, next⟩ := exists_step_next s
  refine ⟨fun w rest h => ⟨responseOf s.rom (decode w), step_eq_respond h⟩, fun f stop => ?_, fun r stop => ?_⟩
  · cases next.symm.trans stop
  · cases next.symm.trans stop

/-- A run answers its requests in order, each by its own response (70_reset_and_hazards.md R112). -/
theorem run_eq_responses (n : Nat) (s : State) (h : n ≤ s.requests.length) : core.run n s = .next
    { rom := s.rom, requests := s.requests.drop n,
      responses := s.responses ++ (s.requests.take n).map fun w => responseOf s.rom (decode w) : State } := by
  induction n generalizing s with
  | zero => simp [run_zero]
  | succ n ih =>
    cases stream : s.requests with
    | nil => simp [stream] at h
    | cons w rest =>
      rw [stream, List.length_cons] at h
      rw [run_succ n (step_eq_respond stream), ih _ (Nat.le_of_succ_le_succ h)]
      simp

/-- Settles O8: the function is the response over the ROM, which every step keeps. -/
theorem runAnswersTheRequestStream : Obligations.RunAnswersTheRequestStream := by
  intro s
  refine ⟨fun w => responseOf s.rom (decode w), fun t w same => ?_, fun n h => run_eq_responses n s h⟩
  rw [← same]
  exact exec_eq (decode w) t

/-- Settles O12: the ROM after reset lists no cell and holds the table, and no response is given. -/
theorem invariantHoldsAtReset : Obligations.InvariantHoldsAtReset where
  canonical := rfl
  table := holdsTable_reset
  responses _ given := absurd given List.not_mem_nil

/-- An operation keeps the invariant: its ROM meets the contract, so its response is not 0x8000 (30_encoding.md R38). -/
theorem State.Inv.of_exec {s t : State} (inv : s.Inv) {i : Instr} (h : exec i s = .next t) : t.Inv := by
  obtain rfl := eq_respond_of_exec h
  refine ⟨inv.canonical, inv.table, fun p given => ?_⟩
  rcases List.mem_append.mp given with before | new
  · exact inv.responses p before
  · rw [List.mem_singleton.mp new]
    exact inv.table.meetsContract.response_ne_min h rfl

/-- Settles O13: an idle step changes nothing; otherwise taking the request leaves ROM and responses, and the operation
keeps the invariant. -/
theorem stepKeepsTheInvariant : Obligations.StepKeepsTheInvariant := by
  intro s t inv h
  rcases step_cases s with ⟨-, idle⟩ | ⟨w, rest, -, serve⟩
  · obtain rfl := Host.Outcome.next.inj (idle.symm.trans h)
    exact inv
  · have taken : State.Inv { s with requests := rest } := ⟨inv.canonical, inv.table, inv.responses⟩
    exact taken.of_exec (serve.symm.trans h)

end Sys2Proof.Machine
end

section
/-! SUPPORT. A line of text reads back as its request (30_encoding.md R44; log 7). -/

namespace Sys2Proof.Machine

/-- The capital spelling of an operation, which the writer uses (30_encoding.md R44). -/
def spelling : Mnemonic → List Char
  | .sin => ['S', 'I', 'N']
  | .cos => ['C', 'O', 'S']

theorem spelling_plain (mn : Mnemonic) : ∀ c ∈ spelling mn, c ≠ ';' := by
  cases mn <;> simp [spelling]

/-- The instruction of an operation and an operand. -/
def instrOf : Mnemonic → Angle → Instr
  | .sin, a => .sin a
  | .cos, a => .cos a

/-- `cs` is written without spaces and comment signs, and reads as the literal `n` (30_encoding.md R44). -/
structure ReadsAs (cs : List Char) (n : Nat) : Prop where
  value : literalValue cs = some n
  plain : ∀ c ∈ cs, c ≠ ';' ∧ c ≠ ' '

theorem ReadsAs.ne_nil {cs : List Char} {n : Nat} (h : ReadsAs cs n) : cs ≠ [] := by
  rintro rfl
  cases h.value

theorem decimal_readsAs (n : Nat) : ReadsAs (decimal n) n where
  value := literalValue_decimal n
  plain c hc :=
    have ⟨_, _, digits⟩ := decimalDigits_spec (n + 1) n (Nat.lt_succ_self n)
    ⟨(digits c hc).1, (digits c hc).2.1⟩

theorem hexPattern_readsAs (p : RespWord) : ReadsAs (hexPattern p) p.toNat where
  value := literalValue_hexPattern p
  plain c hc := by
    have digit : ∀ n, Nat.digitChar (n % 16) ≠ ';' ∧ Nat.digitChar (n % 16) ≠ ' ' := fun n =>
      have ⟨noComment, noSpace, _⟩ := digitChar_plain (n % 16) (Nat.mod_lt n (by decide))
      ⟨noComment, noSpace⟩
    simp only [hexPattern, List.mem_cons, List.not_mem_nil, or_false] at hc
    rcases hc with rfl | rfl | rfl | rfl | rfl | rfl
    · decide
    · decide
    all_goals exact digit _

/-- A line without its comment and its last spaces is the mnemonic, the space and the literal. -/
theorem stripComment_line (mn : Mnemonic) {lit : List Char} {n : Nat} (h : ReadsAs lit n) (k : Nat) {t : List Char}
    (ht : t = [] ∨ ∃ u, t = ';' :: u) :
    stripComment (spelling mn ++ ' ' :: lit ++ List.replicate k ' ' ++ t) = spelling mn ++ ' ' :: lit := by
  refine stripComment_eq _ k t (by simp) ?_ (fun c hc => ?_) ht
  · rw [List.getLast_append_of_ne_nil _ (List.cons_ne_nil _ _), List.getLast_cons h.ne_nil]
    exact (h.plain _ (List.getLast_mem h.ne_nil)).2
  · rcases List.mem_append.mp hc with word | hc
    · exact spelling_plain mn c word
    · rcases List.mem_cons.mp hc with rfl | literal
      · decide
      · exact (h.plain c literal).1

/-- A mnemonic, one space and a literal, with spaces and a comment after them, are a line (30_encoding.md R44). -/
theorem parseLine_line (mn : Mnemonic) {lit : List Char} {n : Nat} (h : ReadsAs lit n) (k : Nat) {t : List Char}
    (ht : t = [] ∨ ∃ u, t = ';' :: u) :
    parseLine (spelling mn ++ ' ' :: lit ++ List.replicate k ' ' ++ t) = .ok ⟨mn, n⟩ := by
  rw [parseLine, stripComment_line mn h k ht]
  cases mn <;> simp [spelling, mnemonicOf, h.value]

theorem assembleLine_ok (mn : Mnemonic) (a : Angle) : assembleLine ⟨mn, a.toNat⟩ = .ok (instrOf mn a) := by
  have fits : Line.wellFormed ⟨mn, a.toNat⟩ = true := decide_eq_true a.isLt
  rw [assembleLine, if_pos fits]
  cases mn <;> simp [instrOf]

/-- The line's literal decides what the line assembles to. -/
theorem assemble_line (mn : Mnemonic) {lit : List Char} {n : Nat} (h : ReadsAs lit n) (k : Nat) {t : List Char}
    (ht : t = [] ∨ ∃ u, t = ';' :: u) :
    assemble (spelling mn ++ ' ' :: lit ++ List.replicate k ' ' ++ t) = assembleLine ⟨mn, n⟩ := by
  rw [assemble, parseLine_line mn h k ht]

/-- The same of a line with nothing after its literal. -/
theorem assemble_bareLine (mn : Mnemonic) {lit : List Char} {n : Nat} (h : ReadsAs lit n) :
    assemble (spelling mn ++ ' ' :: lit) = assembleLine ⟨mn, n⟩ := by
  have line := assemble_line mn h 0 (.inl rfl)
  rwa [List.replicate_zero, List.append_nil, List.append_nil] at line

/-- The writer's line of an instruction is its spelling, one space and its operand in decimal. -/
theorem exists_renderInstr_eq (i : Instr) :
    ∃ mn a, i = instrOf mn a ∧ renderInstr i = spelling mn ++ ' ' :: decimal a.toNat := by
  cases i with
  | sin a => exact ⟨.sin, a, rfl, rfl⟩
  | cos a => exact ⟨.cos, a, rfl, rfl⟩

/-- Settles O5: what a line assembles to depends on its mnemonic and on the number that its literal reads as. -/
theorem textFormReadsBack : Obligations.TextFormReadsBack := by
  refine ⟨fun i => ?_, fun i k comment => ?_, fun a => ⟨?_, ?_⟩, fun n large => ?_⟩
  · obtain ⟨mn, a, rfl, text⟩ := exists_renderInstr_eq i
    rw [text, assemble_bareLine mn (decimal_readsAs _), assembleLine_ok]
  · obtain ⟨mn, a, rfl, text⟩ := exists_renderInstr_eq i
    rw [text, assemble_line mn (decimal_readsAs _) k (.inr ⟨comment, rfl⟩), assembleLine_ok]
  · exact (assemble_bareLine .sin (hexPattern_readsAs a)).trans (assembleLine_ok .sin a)
  · exact (assemble_bareLine .cos (hexPattern_readsAs a)).trans (assembleLine_ok .cos a)
  · have refused : ¬ Line.wellFormed ⟨.sin, n⟩ = true := by simpa [Line.wellFormed] using large
    exact (assemble_bareLine .sin (decimal_readsAs n)).trans (if_neg refused)

end Sys2Proof.Machine
end

section
/-! SUPPORT. ROMs by their bytes: the contract, the image that a ROM is built from, and the canonical form
(10_state.md R12, 20_memory.md R24, 70_reset_and_hazards.md R107). -/

namespace Sys2Proof.Machine

/-- Settles O18: the two premises are the complement of the domain of the read primitive. -/
theorem memReadOutsideTheImageFaults : Obligations.MemReadOutsideTheImageFaults := by
  intro m addr n outside
  rcases memRead_cases m addr n with ⟨pos, inside, -⟩ | ⟨-, fault⟩
  · omega
  · exact fault

/-- The check made at build time is the contract (70_reset_and_hazards.md R107). -/
theorem contract_iff_meetsContract (m : Memory) : m.contract = true ↔ MeetsContract m :=
  m.contract_iff.trans (meetsContract_iff m).symm

/-- The last column of 10_state.md R11. -/
theorem specTable_differences : ∀ i, i < 16 →
    specTable.getD (i + 1) 0 < 65536 ∧ specTable.getD i 0 + 158 ≤ specTable.getD (i + 1) 0 ∧
      specTable.getD (i + 1) 0 ≤ specTable.getD i 0 + 3212 ∧
      (i = 0 → specTable.getD (i + 1) 0 = specTable.getD i 0 + 3212) ∧
      (i = 15 → specTable.getD (i + 1) 0 = specTable.getD i 0 + 158) := by decide

/-- Settles O15: the check is the contract, which the table meets, and the differences are those of the table. -/
theorem tableMeetsTheContract : Obligations.TableMeetsTheContract := by
  refine ⟨⟨holdsTable_reset.meetsContract, fun i hi => ?_⟩, contract_iff_meetsContract, fun s table => ?_⟩
  · exact ⟨_, _, holdsTable_reset i (by omega), holdsTable_reset (i + 1) (by omega), specTable_differences i hi⟩
  · refine ⟨(contract_iff_meetsContract _).mpr table.meetsContract, table.meetsContract, fun i u v hi hu hv => ?_⟩
    obtain rfl := (entry_of_lookup (by omega) hu).symm.trans (table.entry (by omega))
    obtain rfl := (entry_of_lookup (by omega) hv).symm.trans (table.entry (by omega))
    exact specTable_differences i hi

/-! The association list that a ROM is. -/

/-- In a list whose keys rise strictly, looking up the key of a member gives that member. -/
theorem listLookup_of_mem {m : Memory} (sorted : m.Pairwise fun c d => c.1 < d.1) {addr : Nat} {b : Byte}
    (mem : (addr, b) ∈ m) : List.lookup addr m = some b := by
  induction m with
  | nil => cases mem
  | cons c rest ih =>
    obtain ⟨below, sorted⟩ := List.pairwise_cons.mp sorted
    rcases List.mem_cons.mp mem with rfl | mem
    · exact List.lookup_cons_self
    · have other : (addr == c.1) = false := beq_eq_false_iff_ne.mpr (below _ mem).ne'
      rw [List.lookup_cons, other]
      exact ih sorted mem

/-- A listed cell is the byte at its address. -/
theorem Memory.cell_of_mem {m : Memory} (wf : m.wf = true) {addr : Nat} {b : Byte} (mem : (addr, b) ∈ m) :
    m.cell addr = b := by
  rw [Memory.cell, listLookup_of_mem ((m.wf_iff).mp wf).1 mem]
  rfl

/-- An address that no cell lists reads as the table of 10_state.md R11 (log 2). -/
theorem Memory.cell_of_unlisted {m : Memory} {addr : Nat} (unlisted : ∀ b, (addr, b) ∉ m) :
    m.cell addr = resetByte addr := by
  have none : List.lookup addr m = none := List.lookup_eq_none_iff.mpr fun c hc =>
    bne_iff_ne.mpr (by rintro rfl; exact unlisted c.2 hc)
  rw [Memory.cell, none]
  rfl

/-- The cells of a canonical memory are the addresses of the image whose byte is not the table's, with that byte. -/
theorem Memory.mem_iff_cell {m : Memory} (wf : m.wf = true) (addr : Nat) (b : Byte) :
    (addr, b) ∈ m ↔ addr < 34 ∧ m.cell addr = b ∧ b ≠ resetByte addr := by
  constructor
  · intro mem
    obtain ⟨inside, differs⟩ := ((m.wf_iff).mp wf).2 _ mem
    exact ⟨inside, m.cell_of_mem wf mem, differs⟩
  · rintro ⟨-, value, differs⟩
    by_contra missing
    refine differs ?_
    rw [← value]
    refine Memory.cell_of_unlisted fun b' listed => missing ?_
    rwa [← value, m.cell_of_mem wf listed]

/-- Settles O21: reading alike, the two lists have the same members, and both rise strictly. -/
theorem canonicalMemoriesThatReadAlikeAreEqual : Obligations.CanonicalMemoriesThatReadAlikeAreEqual := by
  intro m m' wf wf' alike
  have cells : ∀ addr, addr < 34 → m.cell addr = m'.cell addr := by
    intro addr inside
    have bytes := alike addr inside
    rw [memRead_one m inside, memRead_one m' inside] at bytes
    exact BitVec.eq_of_toNat_eq (Except.ok.inj bytes)
  have members : ∀ c, c ∈ m ↔ c ∈ m' := by
    rintro ⟨addr, b⟩
    rw [m.mem_iff_cell wf, m'.mem_iff_cell wf']
    exact and_congr_right fun inside => by rw [cells addr inside]
  have sorted := ((m.wf_iff).mp wf).1
  have sorted' := ((m'.wf_iff).mp wf').1
  exact sorted.eq_of_mem_iff sorted' members

/-- The byte at an address of the image, as a memory built from it lists it. -/
theorem Memory.mem_ofImage (image : List Byte) (addr : Nat) (b : Byte) :
    (addr, b) ∈ Memory.ofImage image ↔ addr < 34 ∧ image.getD addr 0 ≠ resetByte addr ∧ image.getD addr 0 = b := by
  rw [Memory.ofImage, List.mem_filterMap]
  constructor
  · rintro ⟨x, hx, listed⟩
    split at listed
    · cases listed
    · next differs =>
      obtain ⟨rfl, rfl⟩ := Prod.mk.inj (Option.some.inj listed)
      exact ⟨List.mem_range.mp hx, differs, rfl⟩
  · rintro ⟨inside, differs, rfl⟩
    exact ⟨addr, List.mem_range.mpr inside, if_neg differs⟩

/-- A memory built from an image reads as the image (70_reset_and_hazards.md R107). -/
theorem Memory.ofImage_cell (image : List Byte) {addr : Nat} (inside : addr < 34) :
    (Memory.ofImage image).cell addr = image.getD addr 0 := by
  by_cases same : image.getD addr 0 = resetByte addr
  · rw [same]
    exact Memory.cell_of_unlisted fun b listed => ((Memory.mem_ofImage image addr b).mp listed).2.1 same
  · exact Memory.cell_of_mem (Memory.ofImage_wf image) ((Memory.mem_ofImage image addr _).mpr ⟨inside, same, rfl⟩)

/-- An entry of an image: two bytes, the more significant one first (20_memory.md R24). -/
def imageEntry (image : List Byte) (i : Nat) : Nat :=
  (image.getD (2 * i) 0).toNat * 256 + (image.getD (2 * i + 1) 0).toNat

theorem Memory.ofImage_entry (image : List Byte) {i : Nat} (hi : i < 17) :
    (Memory.ofImage image).entry i = imageEntry image i := by
  rw [Memory.entry_eq, Memory.ofImage_cell image (by omega), Memory.ofImage_cell image (by omega), imageEntry]

/-- The checks under which a ROM is built, and the ROM (70_reset_and_hazards.md R107). -/
theorem romOfImage_eq_some_iff (image : List Byte) (m : Memory) : romOfImage image = some m ↔
    image.length = 34 ∧ MeetsContract (Memory.ofImage image) ∧ Memory.ofImage image = m := by
  rw [romOfImage, Option.ite_none_right_eq_some, contract_iff_meetsContract, Option.some_inj, and_assoc]
  rfl

/-- Settles O20: the entries of the memory built from an image are those of the image, and so are its bytes; the image of
20_memory.md R24 differs from the table at no byte. -/
theorem romIsBuiltFromCheckedImages : Obligations.RomIsBuiltFromCheckedImages := by
  refine ⟨fun image => ?_, fun image m built => ?_, ?_⟩
  · rw [Option.isSome_iff_exists]
    simp only [romOfImage_eq_some_iff]
    constructor
    · rintro ⟨m, length, ⟨T, look, shape⟩, rfl⟩
      refine ⟨length, T, fun i hi => ?_, shape⟩
      rw [← entry_of_lookup hi (look i hi), Memory.ofImage_entry image hi, imageEntry]
    · rintro ⟨length, T, entries, shape⟩
      refine ⟨_, length, ⟨T, fun i hi => ?_, shape⟩, rfl⟩
      rw [lookup_ok _ hi, Memory.ofImage_entry image hi, entries i hi, imageEntry]
  · obtain ⟨-, contract, rfl⟩ := (romOfImage_eq_some_iff image m).mp built
    refine ⟨Memory.ofImage_wf image, contract, fun k hk => ?_⟩
    rw [memRead_one _ hk, Memory.ofImage_cell image hk]
  · have unchanged : Memory.ofImage specImage = State.reset.rom := by decide
    exact (romOfImage_eq_some_iff _ _).mpr ⟨rfl, holdsTable_reset.meetsContract, unchanged⟩

end Sys2Proof.Machine
end

section
/-! SUPPORT. The parts of an angle: its fields and its quadrant (40_angle_decomposer.md R49 to R55). -/

namespace Sys2Proof.Machine

/-- Settles O23: the fault outside the domain, the two calls as they are written, and shift and mask as quotient and
remainder by powers of two. -/
theorem extractBitsDomainAndForms : Obligations.ExtractBitsDomainAndForms := by
  refine ⟨fun v w o outside => extractBits_error v outside, fun v => ⟨rfl, rfl⟩, fun v w o inside => ?_⟩
  refine ⟨extractBits_ok v inside, ?_⟩
  rw [Nat.shiftRight_eq_div_pow, Nat.and_two_pow_sub_one_eq_mod]

/-! The two directions and the two signs, over any table. -/

theorem effIndex_forward {a : Nat} (forward : a / 4096 % 2 = 0) : effIndex a = a / 256 % 16 := if_pos forward

theorem effIndex_mirrored {a : Nat} (mirrored : a / 4096 % 2 = 1) : effIndex a = 15 - a / 256 % 16 := if_neg (by omega)

theorem sineValue_upper (T : Nat → Nat) {a : Nat} (upper : a / 8192 % 2 = 0) : sineValue T a = sineMagnitude T a :=
  if_neg (by omega)

theorem sineValue_lower (T : Nat → Nat) {a : Nat} (lower : a / 8192 % 2 = 1) : sineValue T a = -sineMagnitude T a :=
  if_pos lower

/-- Settles O26: bit 12 of the angle gives the direction and bit 13 the sign. -/
theorem fourQuadrants : Obligations.FourQuadrants := by
  intro m a
  refine ⟨_, sineSignals_eq m a, fun hi => ?_, fun lo hi => ?_, fun lo hi => ?_, fun lo => ?_⟩
  · have forward : a.toNat / 4096 % 2 = 0 := by omega
    have upper : a.toNat / 8192 % 2 = 0 := by omega
    exact ⟨decide_eq_true forward, decide_eq_false (by omega), effIndex_forward forward, sineValue_upper _ upper⟩
  · have mirrored : a.toNat / 4096 % 2 = 1 := by omega
    have upper : a.toNat / 8192 % 2 = 0 := by omega
    exact ⟨decide_eq_false (by omega), decide_eq_false (by omega), effIndex_mirrored mirrored, sineValue_upper _ upper⟩
  · have forward : a.toNat / 4096 % 2 = 0 := by omega
    have lower : a.toNat / 8192 % 2 = 1 := by omega
    exact ⟨decide_eq_true forward, decide_eq_true lower, effIndex_forward forward, sineValue_lower _ lower⟩
  · have mirrored : a.toNat / 4096 % 2 = 1 := by omega
    have lower : a.toNat / 8192 % 2 = 1 := by omega
    exact ⟨decide_eq_false (by omega), decide_eq_true lower, effIndex_mirrored mirrored, sineValue_lower _ lower⟩

/-- The four parts of an angle are those of its low 14 bits (40_angle_decomposer.md R54). -/
theorem parts_mod (a : Nat) : a % 16384 % 256 = a % 256 ∧ a % 16384 / 256 % 16 = a / 256 % 16 ∧
    a % 16384 / 4096 % 2 = a / 4096 % 2 ∧ a % 16384 / 8192 % 2 = a / 8192 % 2 := by omega

theorem effIndex_mod (a : Nat) : effIndex (a % 16384) = effIndex a := by
  obtain ⟨-, index, direction, -⟩ := parts_mod a
  rw [effIndex, effIndex, index, direction]

theorem sineMagnitude_mod (T : Nat → Nat) (a : Nat) : sineMagnitude T (a % 16384) = sineMagnitude T a := by
  obtain ⟨fraction, -, direction, -⟩ := parts_mod a
  rw [sineMagnitude, sineMagnitude, fraction, direction, effIndex_mod]

/-- The sine reads the low 14 bits of its angle (40_angle_decomposer.md R54, 44_laws.md R85). -/
theorem sineValue_mod (T : Nat → Nat) (a : Nat) : sineValue T (a % 16384) = sineValue T a := by
  obtain ⟨-, -, -, sign⟩ := parts_mod a
  rw [sineValue, sineValue, sign, sineMagnitude_mod]

/-- Settles O27: each signal is a function of the parts of the angle, and those read its low 14 bits. -/
theorem highAngleBitsAreIgnored : Obligations.HighAngleBitsAreIgnored := by
  intro m a
  obtain ⟨fraction, index, direction, sign⟩ := parts_mod a.toNat
  have low : (BitVec.ofNat 16 (a.toNat % 16384)).toNat = a.toNat % 16384 := angle_toNat_ofNat (by omega)
  simp only [sineSignals_eq, low, fraction, index, direction, sign, effIndex_mod, sineMagnitude_mod, sineValue_mod]

/-- Settles O28: the parts are the digits of the low 14 bits in the mixed base 2, 2, 16, 256. -/
theorem angleReassemblesFromItsParts : Obligations.AngleReassemblesFromItsParts := by
  constructor
  · intro a
    refine ⟨_, _, _, _, interpOf_eq a, indexOf_eq a, rfl, rfl, ?_⟩
    simp only [fwdFlag_eq, negFlag_eq, decide_eq_true_eq]
    split_ifs <;> omega
  · intro a b
    simp only [interpOf_eq, indexOf_eq, fwdFlag_eq, negFlag_eq, Except.ok.injEq, decide_eq_decide]
    omega

end Sys2Proof.Machine
end

section
/-! SUPPORT. The stages of the sine engine (41_sine_table_rom.md R59, 42_sine_engine.md R60 to R70). -/

namespace Sys2Proof.Machine

/-- The height of a segment of the table (10_state.md R11, 42_sine_engine.md R66). -/
theorem HoldsTable.height_bounds {m : Memory} (h : HoldsTable m) {i : Nat} (hi : i ≤ 15) :
    m.entry i + 158 ≤ m.entry (i + 1) ∧ m.entry (i + 1) ≤ m.entry i + 3212 := by
  rw [h.entry (by omega), h.entry (by omega)]
  obtain ⟨-, least, greatest, -⟩ := specTable_differences i (by omega)
  exact ⟨least, greatest⟩

/-- Segment `k` is read at the sample point where it begins (42_sine_engine.md R60). -/
theorem effIndex_sample {k : Nat} (hk : k ≤ 15) : effIndex (256 * k) = k := by
  rw [effIndex_forward (by omega)]
  omega

/-- Settles O29: the index is a 4-bit number and mirroring is its complement; each segment is read at its beginning. -/
theorem effectiveIndexStaysInTheTable : Obligations.EffectiveIndexStaysInTheTable := by
  refine ⟨fun m a => ?_, fun index => (BitVec.toNat_not (x := index)).symm, fun m k hk => ?_⟩
  · have inside := effIndex_le a.toNat
    refine ⟨_, sineSignals_eq m a, Nat.le_of_lt_succ (Nat.mod_lt _ (by decide)), ?_, inside, Nat.le_add_left _ _,
      Nat.succ_le_succ inside, ⟨_, _, lookup_ok m (Nat.lt_of_le_of_lt inside (by decide)),
        lookup_ok m (Nat.succ_lt_succ (Nat.lt_succ_of_le inside)), rfl, rfl⟩, fun table => ?_⟩
    · simp only [effIndex, decide_eq_true_eq]
    · obtain ⟨rise, -⟩ := table.height_bounds inside
      exact Int.ofNat_lt.mpr (by omega)
  · refine ⟨BitVec.ofNat 16 (256 * k), _, sineSignals_eq m _, ?_⟩
    rw [angle_toNat_ofNat (by omega)]
    exact effIndex_sample hk

/-- Settles O30: the last segment is index 15 read forward or index 0 mirrored, each in two ranges of angles. -/
theorem sentinelIsReadInTheLastSegment : Obligations.SentinelIsReadInTheLastSegment := by
  intro m a
  refine ⟨_, sineSignals_eq m a, ?_, ?_, ?_⟩
  · simp only [effIndex, decide_eq_true_eq, decide_eq_false_iff_not]
    split_ifs <;> omega
  · simp only [decide_eq_true_eq]
    omega
  · simp only [decide_eq_false_iff_not]
    omega

/-- Truncation toward zero divides the magnitude and keeps the sign (00_scope.md R6). -/
theorem tdiv_eq_sign_mul (p : Int) : p.tdiv 256 = p.sign * (p.natAbs / 256 : Nat) := by
  rw [← Int.sign_mul_natAbs (p.tdiv 256), Int.sign_tdiv, Int.natAbs_tdiv]
  split
  · next small => simp [Nat.div_eq_of_lt (show p.natAbs < 256 from small)]
  · rw [show Int.sign 256 = 1 from rfl, Int.mul_one]
    rfl

/-- Settles O31: under the contract the segment rises, so the product is not negative and the three divisions agree. -/
theorem signedDifferenceAndTruncatingDivision : Obligations.SignedDifferenceAndTruncatingDivision := by
  intro m a
  have inside := effIndex_le a.toNat
  refine ⟨_, sineSignals_eq m a, rfl, rfl, tdiv_eq_sign_mul _, fun contract => ?_, fun table => ?_⟩
  · obtain ⟨-, -, rising⟩ := (meetsContract_iff m).mp contract
    have height : (0 : Int) ≤ m.entry (effIndex a.toNat + 1) - m.entry (effIndex a.toNat) :=
      Int.sub_nonneg_of_le (Int.ofNat_le.mpr (rising _ (Nat.lt_succ_of_le inside)))
    have product := Int.mul_nonneg height (Int.natCast_nonneg (a.toNat % 256))
    have floor := Int.tdiv_eq_ediv_of_nonneg (b := 256) product
    exact ⟨height, product, floor, floor.trans (Int.shiftRight_eq_div_pow _ 8).symm⟩
  · obtain ⟨least, greatest⟩ := table.height_bounds inside
    constructor <;> dsimp only <;> omega

/-- The delta of a segment that rises stops short of its height (42_sine_engine.md R66). -/
theorem segmentDelta_lt (T : Nat → Nat) (i f : Nat) (rising : T i < T (i + 1)) (hf : f < 256) :
    segmentDelta T i f ≤ (T (i + 1) : Int) - T i - 1 := by
  obtain ⟨delta, -⟩ := segmentDelta_bounds T i f rising.le hf
  have short : (T (i + 1) - T i) * f < (T (i + 1) - T i) * 256 := Nat.mul_lt_mul_of_pos_left hf (Nat.sub_pos_of_lt rising)
  omega

/-- The entries of a segment of the table (42_sine_engine.md R66). -/
theorem HoldsTable.ends_bounds {m : Memory} (h : HoldsTable m) {i : Nat} (hi : i ≤ 15) :
    m.entry i ≤ 32609 ∧ 3212 ≤ m.entry (i + 1) ∧ m.entry (i + 1) ≤ 32767 := by
  obtain ⟨-, -, rising⟩ := (meetsContract_iff m).mp h.meetsContract
  have low : m.entry 1 = 3212 := h.entry (by decide)
  have high : m.entry 15 = 32609 := h.entry (by decide)
  refine ⟨?_, ?_, h.meetsContract.entry_le (by omega)⟩
  · exact (table_mono m.entry rising hi (by decide)).trans_eq high
  · exact low.symm.trans_le (table_mono m.entry rising (by omega) (by omega))

/-- The interpolation product over the table (42_sine_engine.md R66). -/
theorem HoldsTable.product_bounds {m : Memory} (h : HoldsTable m) {i f : Nat} (hi : i ≤ 15) (hf : f < 256) :
    0 ≤ ((m.entry (i + 1) : Int) - m.entry i) * f ∧ ((m.entry (i + 1) : Int) - m.entry i) * f ≤ 819060 := by
  obtain ⟨least, greatest⟩ := h.height_bounds hi
  constructor
  · exact Int.mul_nonneg (by omega) (Int.natCast_nonneg f)
  · calc ((m.entry (i + 1) : Int) - m.entry i) * f ≤ 3212 * 255 :=
          Int.mul_le_mul (by omega) (by omega) (by omega) (by decide)
      _ = 819060 := by decide

/-- The interpolated delta over the table (42_sine_engine.md R66). -/
theorem HoldsTable.delta_bounds {m : Memory} (h : HoldsTable m) {i f : Nat} (hi : i ≤ 15) (hf : f < 256) :
    0 ≤ segmentDelta m.entry i f ∧ segmentDelta m.entry i f ≤ 3199 ∧
      segmentDelta m.entry i f ≤ (m.entry (i + 1) : Int) - m.entry i - 1 := by
  obtain ⟨rise, -⟩ := h.height_bounds hi
  obtain ⟨nonneg, product⟩ := h.product_bounds hi hf
  have floor : segmentDelta m.entry i f = ((m.entry (i + 1) : Int) - m.entry i) * f / 256 :=
    Int.tdiv_eq_ediv_of_nonneg nonneg
  refine ⟨?_, ?_, segmentDelta_lt m.entry i f (by omega) hf⟩ <;> omega

/-- The magnitude stays in its segment and leaves the far end out (42_sine_engine.md R66). -/
theorem HoldsTable.sineMagnitude_segment {m : Memory} (h : HoldsTable m) (a : Nat) :
    (a / 4096 % 2 = 0 → (m.entry (effIndex a) : Int) ≤ sineMagnitude m.entry a ∧
      sineMagnitude m.entry a ≤ (m.entry (effIndex a + 1) : Int) - 1) ∧
    (¬ a / 4096 % 2 = 0 → (m.entry (effIndex a) : Int) + 1 ≤ sineMagnitude m.entry a ∧
      sineMagnitude m.entry a ≤ m.entry (effIndex a + 1)) := by
  obtain ⟨nonneg, -, short⟩ := h.delta_bounds (effIndex_le a) (Nat.mod_lt a (show 256 > 0 by decide))
  constructor
  · intro forward
    rw [sineMagnitude, if_pos forward]
    omega
  · intro mirrored
    rw [sineMagnitude, if_neg mirrored]
    omega

/-- Settles O32: the entries, heights and products of the table bound the signals stage by stage. -/
theorem boundsOfTheInternalSignals : Obligations.BoundsOfTheInternalSignals := by
  intro m a table
  obtain ⟨-, last, rising⟩ := (meetsContract_iff m).mp table.meetsContract
  have inside := effIndex_le a.toNat
  have fraction : a.toNat % 256 < 256 := Nat.mod_lt _ (by decide)
  obtain ⟨least, greatest⟩ := table.height_bounds inside
  obtain ⟨lowEnd, highEnd, amplitude⟩ := table.ends_bounds inside
  obtain ⟨product, productHi⟩ := table.product_bounds inside fraction
  obtain ⟨delta, deltaHi, short⟩ := table.delta_bounds inside fraction
  obtain ⟨forward, mirrored⟩ := table.sineMagnitude_segment a.toNat
  obtain ⟨magnitude, magnitudeHi⟩ := sineMagnitude_bounds m.entry rising last a.toNat
  obtain ⟨sine, sineHi⟩ := sineValue_bounds m.entry rising last a.toNat
  have zero : sineMagnitude m.entry a.toNat = 0 → sineValue m.entry a.toNat = 0 := by
    intro none
    rw [sineValue, none, Int.neg_zero, ite_self]
  refine ⟨_, sineSignals_eq m a, by simp only [sineMagnitude, decide_eq_true_eq],
    by simp only [sineValue, decide_eq_true_eq], fun none => ⟨zero none, by simp only [zero none]; rfl⟩,
    ?_, ?_, product, productHi, delta, deltaHi, short, fun fwd => forward (of_decide_eq_true fwd),
    fun fwd => mirrored (of_decide_eq_false fwd), Int.natCast_nonneg _, ?_, ?_, ?_, magnitude, magnitudeHi, sine, sineHi⟩
  all_goals
    dsimp only
    omega

/-- Settles O34: SIN reads its operand and COS its shifted operand, and the result has its pattern. -/
theorem responseIsThePatternOfTheResult : Obligations.ResponseIsThePatternOfTheResult := by
  intro s a z path lo hi
  have result : sineValue s.rom.entry a.toNat = z := Except.ok.inj ((sinePath_eq s.rom a).symm.trans path)
  have pattern := respPattern_of_range z lo hi
  refine ⟨?_, fun b shifted => ?_⟩
  · rw [exec_sin, result, pattern]
    rfl
  · rw [exec_cos, ← cosShift_toNat, shifted, result, pattern]
    rfl

/-- Settles O35: an operation gives its response, and under the contract the sine is in range. -/
theorem sinAndCosAreTotal : Obligations.SinAndCosAreTotal := by
  intro s a
  refine ⟨⟨_, exec_eq (.sin a) s⟩, ⟨_, exec_eq (.cos a) s⟩, ?_, fun contract => ?_⟩
  · rw [cosShift_toNat]
    omega
  · obtain ⟨sinLo, sinHi⟩ := contract.sineValue_range a.toNat
    obtain ⟨cosLo, cosHi⟩ := contract.sineValue_range ((a.toNat + 4096) % 16384)
    exact ⟨_, _, contract.answers_sin a, contract.answers_cos a, sinLo, sinHi, cosLo, cosHi⟩

/-! The closed forms, over a table `T` that meets the contract. -/

section
variable {s : State} {T : Nat → Nat} (look : ∀ i, i < 17 → lookup s.rom i = .ok (T i))
include look

theorem sineValue_entry_eq : sineValue s.rom.entry = sineValue T :=
  funext (sineValue_congr fun i hi => entry_of_lookup hi (look i hi))

variable (first : T 0 = 0) (last : T 16 = 32767) (rising : ∀ i, i < 16 → T i ≤ T (i + 1))
include first last rising

theorem sineOf_table : SineOf s (sineValue T) := by
  have contract : MeetsContract s.rom := ⟨T, look, first, last, rising⟩
  rw [← sineValue_entry_eq look]
  exact contract.sineOf

theorem cosineOf_table : CosineOf s fun a => sineValue T ((a + 4096) % 16384) := by
  have contract : MeetsContract s.rom := ⟨T, look, first, last, rising⟩
  rw [← sineValue_entry_eq look]
  exact contract.cosineOf

theorem answers_sin_table (a : Angle) : Answers s (.sin a) (sineValue T a.toNat) := by
  have contract : MeetsContract s.rom := ⟨T, look, first, last, rising⟩
  rw [← sineValue_entry_eq look]
  exact contract.answers_sin a

end

/-- The magnitude where the table is read forward (42_sine_engine.md R70). -/
theorem sineMagnitude_forward {T : Nat → Nat} (rising : ∀ i, i < 16 → T i ≤ T (i + 1)) {a : Nat}
    (forward : a / 4096 % 2 = 0) : sineMagnitude T a =
      T (a / 256 % 16) + (segmentHeight T (a / 256 % 16) * (a % 256) / 256 : Nat) := by
  obtain ⟨delta, -⟩ := segmentDelta_bounds T (a / 256 % 16) (a % 256) (rising _ (by omega)) (by omega)
  rw [sineMagnitude, if_pos forward, effIndex_forward forward, delta]
  rfl

/-- The magnitude where the table is read mirrored (42_sine_engine.md R70). -/
theorem sineMagnitude_mirrored {T : Nat → Nat} (rising : ∀ i, i < 16 → T i ≤ T (i + 1)) {a : Nat}
    (mirrored : a / 4096 % 2 = 1) : sineMagnitude T a =
      T (16 - a / 256 % 16) - (segmentHeight T (15 - a / 256 % 16) * (a % 256) / 256 : Nat) := by
  obtain ⟨delta, -⟩ := segmentDelta_bounds T (15 - a / 256 % 16) (a % 256) (rising _ (by omega)) (by omega)
  rw [sineMagnitude, if_neg (by omega), effIndex_mirrored mirrored, delta, segmentHeight,
    show 15 - a / 256 % 16 + 1 = 16 - a / 256 % 16 by omega]

/-- Going down from the top of a segment with a truncated part is going up from its foot with the rest rounded up
(42_sine_engine.md R70). -/
theorem sub_floor_eq_add_ceil {u v f : Nat} (rising : u ≤ v) (hf : f ≤ 256) :
    (v : Int) - ((v - u) * f / 256 : Nat) = u + (((v - u) * (256 - f) + 255) / 256 : Nat) := by
  have whole : (v - u) * f + (v - u) * (256 - f) = (v - u) * 256 := by rw [← Nat.mul_add, Nat.add_sub_of_le hf]
  omega

/-- Settles O36: SIN reads the low 14 bits, and the four quadrants are two directions and two signs. -/
theorem closedFormsOfSine : Obligations.ClosedFormsOfSine := by
  intro s T angle look first last rising a14 f i D q0 q1
  have answer : Answers s (.sin angle) (sineValue T a14) := by
    rw [sineValue_mod]
    exact answers_sin_table look first last rising angle
  have bound : a14 < 16384 := Nat.mod_lt _ (by decide)
  have forward : a14 / 4096 % 2 = 0 → sineMagnitude T a14 = q0 := sineMagnitude_forward rising
  have mirrored : a14 / 4096 % 2 = 1 → sineMagnitude T a14 = q1 := sineMagnitude_mirrored rising
  refine ⟨fun hi => ?_, fun lo hi => ?_, fun lo hi => ?_, fun lo => ?_, ?_⟩
  · rwa [sineValue_upper T (by omega), forward (by omega)] at answer
  · rwa [sineValue_upper T (by omega), mirrored (by omega)] at answer
  · rwa [sineValue_lower T (by omega), forward (by omega)] at answer
  · rwa [sineValue_lower T (by omega), mirrored (by omega)] at answer
  · have index : i ≤ 15 := Nat.le_of_lt_succ (Nat.mod_lt _ (by decide))
    have top : 15 - i + 1 = 16 - i := by omega
    have rise := rising (15 - i) (by omega)
    rw [top] at rise
    have ends : q1 = T (16 - i) - (((T (16 - i) - T (15 - i)) * f / 256 : Nat) : Int) := by simp only [q1, D, top]
    have fraction : f ≤ 256 := (Nat.mod_lt _ (by decide)).le
    rw [ends, sub_floor_eq_add_ceil rise fraction]
    simp only [D, top]

end Sys2Proof.Machine
end

section
/-! SUPPORT. The cosine adapter and the response word (43_cosine_adapter.md R72 to R74, 30_encoding.md R38). -/

namespace Sys2Proof.Machine

/-- Settles O37: adding 4096 modulo 16384 adds 1 to the two quadrant bits modulo 4 and leaves the 12 bits below. -/
theorem cosineShiftsByOneQuadrant : Obligations.CosineShiftsByOneQuadrant := by
  intro a
  have shifted := cosShift_toNat a
  refine ⟨shifted, by omega, ?_, ?_, ?_, ?_, ?_⟩
  · apply BitVec.eq_of_toNat_eq
    have one : (1 : BitVec 2).toNat = 1 := rfl
    simp only [BitVec.toNat_add, BitVec.extractLsb'_toNat, Nat.shiftRight_eq_div_pow, shifted, one]
    omega
  · apply BitVec.eq_of_toNat_eq
    simp only [BitVec.extractLsb'_toNat, Nat.shiftRight_eq_div_pow, shifted]
    omega
  · apply BitVec.eq_of_toNat_eq
    have zero : (0 : BitVec 2).toNat = 0 := rfl
    simp only [BitVec.extractLsb'_toNat, Nat.shiftRight_eq_div_pow, shifted, zero]
    omega
  · rw [interpOf_eq, interpOf_eq, shifted, show (a.toNat + 4096) % 16384 % 256 = a.toNat % 256 by omega]
  · rw [indexOf_eq, indexOf_eq, shifted, show (a.toNat + 4096) % 16384 / 256 % 16 = a.toNat / 256 % 16 by omega]

/-- Angles that agree in their low 14 bits have the same sine. -/
theorem sineValue_congr_mod (T : Nat → Nat) {a b : Nat} (h : a % 16384 = b % 16384) : sineValue T a = sineValue T b := by
  rw [← sineValue_mod T a, h, sineValue_mod]

/-- Operations whose angles enter the sine path with the same low 14 bits have the same response. -/
theorem responseOf_congr_mod (m : Memory) {i j : Instr} (h : pathAngle i % 16384 = pathAngle j % 16384) :
    responseOf m i = responseOf m j := by
  rw [responseOf, responseOf, sineValue_congr_mod m.entry h]

/-- The same of what the operations do. -/
theorem exec_congr_mod (s : State) {i j : Instr} (h : pathAngle i % 16384 = pathAngle j % 16384) :
    exec i s = exec j s := by
  rw [exec_eq, exec_eq, responseOf_congr_mod s.rom h]

/-- Settles O38: the adapter's shift in the two ranges, the literal formula modulo 16384, and three angles that are the
same modulo 16384. -/
theorem twoBranchFormOfTheCosineShift : Obligations.TwoBranchFormOfTheCosineShift := by
  refine ⟨fun a => ⟨fun hi => ?_, fun lo hi => ?_, fun lo => ?_⟩, fun s => ⟨?_, ?_⟩⟩
  · rw [cosShift_toNat]
    omega
  · rw [cosShift_toNat]
    omega
  · have word := a.isLt
    rw [cosLitAngle, if_pos lo]
    omega
  · exact exec_congr_mod s (by decide)
  · exact exec_congr_mod s (by decide)

/-- Settles O39: both operations enter the sine path with the same angle. -/
theorem cosExecutesSinOfTheShiftedAngle : Obligations.CosExecutesSinOfTheShiftedAngle := by
  intro s angle
  have shifted : (BitVec.ofNat 16 ((angle.toNat + 4096) % 16384)).toNat = (angle.toNat + 4096) % 16384 :=
    angle_toNat_ofNat (by omega)
  refine ⟨exec_congr_mod s ?_, _, exec_eq (.cos angle) s⟩
  rw [pathAngle, pathAngle, shifted]

/-- The reading of a response in 256 bits is its value (30_encoding.md R38). -/
theorem int256_toInt (p : RespWord) : (RespWord.int256 p).toInt = p.toInt := BitVec.toInt_signExtend_of_le (by decide)

/-- The upper bits of the reading in 256 bits repeat the sign (30_encoding.md R38). -/
theorem int256_getLsbD (p : RespWord) {k : Nat} (lo : 16 ≤ k) (hi : k < 256) :
    (RespWord.int256 p).getLsbD k = p.getLsbD 15 := by
  rw [RespWord.int256, BitVec.getLsbD_signExtend, if_neg (Nat.not_lt.mpr lo), decide_eq_true hi, Bool.true_and,
    BitVec.msb_eq_getLsbD_last]

/-- Settles O40: the result that enters the response is the sine at the path's angle, and it is in range. -/
theorem responseWordFormat : Obligations.ResponseWordFormat := by
  intro s i a b contract form
  have entering : pathAngle i = b.toNat := by
    rcases form with ⟨rfl, rfl⟩ | ⟨rfl, rfl⟩
    · rfl
    · exact (cosShift_toNat a).symm
  obtain ⟨lo, hi⟩ := contract.sineValue_range b.toNat
  have pattern : responseOf s.rom i = respPattern (sineValue s.rom.entry b.toNat) := by rw [responseOf, entering]
  have value := respPattern_toInt (sineValue s.rom.entry b.toNat) (by omega) (by omega)
  refine ⟨_, responseOf s.rom i, sinePath_eq s.rom b, exec_eq i s, ?_⟩
  rw [pattern]
  exact ⟨respPattern_of_range _ (by omega) (by omega), value, respPattern_ne_min lo hi, (int256_toInt _).trans value,
    fun k => int256_getLsbD _⟩

end Sys2Proof.Machine
end

section
/-! SUPPORT. The laws that hold of every table: periodicity, the shifted sine, the half turn, the sample points
(44_laws.md R80, R83, R85, R86). -/

namespace Sys2Proof.Machine

/-- What SIN answers at each angle, whatever the ROM holds. -/
def sineResponse (m : Memory) (a : Nat) : Int := (responseOf m (.sin (BitVec.ofNat 16 a))).toInt

/-- What COS answers at each angle, whatever the ROM holds. -/
def cosineResponse (m : Memory) (a : Nat) : Int := (responseOf m (.cos (BitVec.ofNat 16 a))).toInt

theorem sineOf_sineResponse (s : State) : SineOf s (sineResponse s.rom) := fun _ _ => answers_response s _

theorem cosineOf_cosineResponse (s : State) : CosineOf s (cosineResponse s.rom) := fun _ _ => answers_response s _

/-- The two responses are functions of the angle that enters the sine path, modulo 16384. -/
theorem sineResponse_congr (m : Memory) {a b : Nat} (h : a % 16384 = b % 16384) :
    sineResponse m a = sineResponse m b := by
  refine congrArg BitVec.toInt (responseOf_congr_mod m ?_)
  simp only [pathAngle, BitVec.toNat_ofNat]
  omega

theorem cosineResponse_eq (m : Memory) {a b : Nat} (h : (a + 4096) % 16384 = b % 16384) :
    cosineResponse m a = sineResponse m b := by
  refine congrArg BitVec.toInt (responseOf_congr_mod m ?_)
  simp only [pathAngle, BitVec.toNat_ofNat]
  omega

/-- Settles O43: COS at `a` and SIN at either sum enter the sine path with the same low 14 bits. -/
theorem cosineIsShiftedSine : Obligations.CosineIsShiftedSine := by
  intro s
  refine ⟨_, _, sineOf_sineResponse s, cosineOf_cosineResponse s, fun a _ => ⟨?_, ?_⟩⟩
  · exact cosineResponse_eq s.rom (by omega)
  · exact cosineResponse_eq s.rom (by omega)

/-- Settles O49: reducing the operand modulo 16384 leaves the low 14 bits of the angle that enters the sine path. -/
theorem periodicInTheIgnoredBits : Obligations.PeriodicInTheIgnoredBits := by
  intro s
  refine ⟨_, _, sineOf_sineResponse s, cosineOf_cosineResponse s, fun a _ => ⟨?_, ?_⟩⟩
  · exact sineResponse_congr s.rom (by omega)
  · rw [cosineResponse_eq s.rom (a := a) rfl, cosineResponse_eq s.rom (b := a + 4096) (by omega)]

/-- Half a turn changes the sign bit and nothing else (44_laws.md R86). -/
theorem sineValue_halfTurn (T : Nat → Nat) (a : Nat) : sineValue T (a + 8192) = -sineValue T a := by
  have direction : (a + 8192) / 4096 % 2 = a / 4096 % 2 := by omega
  have index : effIndex (a + 8192) = effIndex a := by
    rw [effIndex, effIndex, direction, show (a + 8192) / 256 % 16 = a / 256 % 16 by omega]
  have magnitude : sineMagnitude T (a + 8192) = sineMagnitude T a := by
    rw [sineMagnitude, sineMagnitude, direction, index, show (a + 8192) % 256 = a % 256 by omega]
  rcases Nat.mod_two_eq_zero_or_one (a / 8192) with upper | lower
  · rw [sineValue_upper T upper, sineValue_lower T (by omega), magnitude]
  · rw [sineValue_lower T lower, sineValue_upper T (by omega), magnitude, Int.neg_neg]

/-- The values of the second half of a circle cancel those of the first. -/
theorem sum_circle_eq_zero {f : Nat → Int} {n : Nat} (opposite : ∀ a, f (n + a) = -f a) :
    ((List.range (n + n)).map f).sum = 0 := by
  have second : ((List.range n).map (n + ·)).map f = ((List.range n).map f).map fun z => -z := by
    rw [List.map_map, List.map_map]
    exact List.map_congr_left fun a _ => opposite a
  rw [List.range_add, List.map_append, List.sum_append, second, ← List.sum_neg, add_neg_cancel]

/-- The cosine over a table `T`: COS takes its angle one quadrant further on (43_cosine_adapter.md R72). -/
abbrev cosineValue (T : Nat → Nat) (a : Nat) : Int := sineValue T ((a + 4096) % 16384)

theorem cosineValue_halfTurn (T : Nat → Nat) (a : Nat) : cosineValue T (a + 8192) = -cosineValue T a := by
  rw [cosineValue, cosineValue, sineValue_mod, sineValue_mod, Nat.add_right_comm, sineValue_halfTurn]

/-- Settles O50: half a turn negates the sine of any angle, so the two halves of a circle cancel. -/
theorem halfTurnAntisymmetry : Obligations.HalfTurnAntisymmetry := by
  intro s contract
  refine ⟨_, cosineValue s.rom.entry, contract.sineOf, contract.cosineOf, fun a _ => ⟨?_, ?_⟩, ?_, ?_⟩
  · rw [sineValue_mod, sineValue_halfTurn]
  · rw [← cosineValue_halfTurn]
    exact sineValue_congr_mod _ (by omega)
  · refine sum_circle_eq_zero (n := 8192) fun a => ?_
    rw [Nat.add_comm, sineValue_halfTurn]
  · refine sum_circle_eq_zero (n := 8192) fun a => ?_
    rw [Nat.add_comm, cosineValue_halfTurn]

/-- The sine at the sample points of a quarter circle (44_laws.md R83). -/
theorem sineValue_sampleUp (T : Nat → Nat) {k : Nat} (hk : k ≤ 16) : sineValue T (256 * k) = T k := by
  have index : sampleIndex (256 * k) = k := by
    unfold sampleIndex
    split <;> omega
  rw [sineValue_sample T (Nat.mul_mod_right 256 k), if_neg (by omega), index]

/-- The sine at the sample points of the next quarter circle (44_laws.md R83). -/
theorem sineValue_sampleDown (T : Nat → Nat) (first : T 0 = 0) {k : Nat} (hk : k ≤ 16) :
    sineValue T (4096 + 256 * k) = T (16 - k) := by
  rcases Nat.lt_or_eq_of_le hk with inside | rfl
  · have index : sampleIndex (4096 + 256 * k) = 16 - k := by
      unfold sampleIndex
      split <;> omega
    rw [sineValue_sample T (by omega), if_neg (by omega), index]
  · rw [sineValue_sample T (by decide)]
    simp [sampleIndex, first]

/-- Settles O47: at the sample points of the first half circle the sine is an entry, and half a turn negates it. -/
theorem exactAtTheSamplePoints : Obligations.ExactAtTheSamplePoints := by
  intro s T look first last rising
  refine ⟨_, sineOf_table look first last rising, fun k hk => ?_⟩
  have up := sineValue_sampleUp T hk
  have down := sineValue_sampleDown T first hk
  refine ⟨up, down, ?_, ?_⟩
  · rw [Nat.add_comm, sineValue_halfTurn, up]
  · rw [show 12288 + 256 * k = 4096 + 256 * k + 8192 by omega, sineValue_halfTurn, down]

end Sys2Proof.Machine
end

section
/-! SUPPORT. Monotonicity (44_laws.md R82, 70_reset_and_hazards.md R107): from one angle to the next the sine gains or
loses what the interpolation of the segment gains. -/

namespace Sys2Proof.Machine

/-- What the interpolation of a segment of height `d` gains from the fraction `f` to the next. -/
def fractionGain (d f : Nat) : Nat := d * (f + 1) / 256 - d * f / 256

/-- What the magnitude gains, or in a mirrored quadrant loses, from the angle `a` to the next. -/
def angleGain (T : Nat → Nat) (a : Nat) : Nat := fractionGain (segmentHeight T (effIndex a)) (a % 256)

/-- The truncated part of a height goes on by the gain. -/
theorem floor_add_fractionGain (d f : Nat) : d * f / 256 + fractionGain d f = d * (f + 1) / 256 :=
  Nat.add_sub_cancel' (Nat.div_le_div_right (Nat.mul_le_mul_left d (Nat.le_succ f)))

/-- The interpolation of a segment ends at its height. -/
theorem floor_add_fractionGain_last (d : Nat) : d * 255 / 256 + fractionGain d 255 = d := by
  rw [floor_add_fractionGain, Nat.mul_div_cancel d (by decide)]

/-- The sign of an angle serves the next angle too: where the sign changes the sine is 0. -/
theorem sineValue_succ_sign {T : Nat → Nat} (first : T 0 = 0) (a : Nat) : sineValue T (a + 1) =
    if a / 8192 % 2 = 1 then -sineMagnitude T (a + 1) else sineMagnitude T (a + 1) := by
  by_cases halfCircle : (a + 1) % 8192 = 0
  · have index : sampleIndex (a + 1) = 0 := by
      unfold sampleIndex
      split <;> omega
    have zero : sineMagnitude T (a + 1) = 0 := by rw [sineMagnitude_sample T (by omega), index, first, Int.ofNat_zero]
    rw [sineValue, zero, Int.neg_zero, ite_self, ite_self]
  · rw [sineValue, show (a + 1) / 8192 = a / 8192 by omega]

section
variable {T : Nat → Nat} (rising : ∀ i, i < 16 → T i ≤ T (i + 1))
include rising

theorem sineMagnitude_succ_forward {a : Nat} (forward : a / 4096 % 2 = 0) :
    sineMagnitude T (a + 1) = sineMagnitude T a + angleGain T a := by
  rw [sineMagnitude_forward rising forward, angleGain, effIndex_forward forward]
  rcases (show a % 256 < 255 ∨ a % 256 = 255 by omega) with inside | edge
  · rw [sineMagnitude_forward rising (a := a + 1) (by omega), show (a + 1) / 256 = a / 256 by omega,
      show (a + 1) % 256 = a % 256 + 1 by omega, ← floor_add_fractionGain]
    omega
  · have index : sampleIndex (a + 1) = a / 256 % 16 + 1 := by
      unfold sampleIndex
      split <;> omega
    have rise := rising (a / 256 % 16) (by omega)
    have whole := floor_add_fractionGain_last (segmentHeight T (a / 256 % 16))
    rw [sineMagnitude_sample T (a := a + 1) (by omega), index, edge]
    simp only [segmentHeight] at whole ⊢
    omega

theorem sineMagnitude_succ_mirrored {a : Nat} (mirrored : a / 4096 % 2 = 1) :
    sineMagnitude T (a + 1) = sineMagnitude T a - angleGain T a := by
  rw [sineMagnitude_mirrored rising mirrored, angleGain, effIndex_mirrored mirrored]
  rcases (show a % 256 < 255 ∨ a % 256 = 255 by omega) with inside | edge
  · rw [sineMagnitude_mirrored rising (a := a + 1) (by omega), show (a + 1) / 256 = a / 256 by omega,
      show (a + 1) % 256 = a % 256 + 1 by omega, ← floor_add_fractionGain]
    omega
  · have index : sampleIndex (a + 1) = 15 - a / 256 % 16 := by
      unfold sampleIndex
      split <;> omega
    have rise := rising (15 - a / 256 % 16) (by omega)
    have whole := floor_add_fractionGain_last (segmentHeight T (15 - a / 256 % 16))
    rw [sineMagnitude_sample T (a := a + 1) (by omega), index, edge]
    simp only [segmentHeight, show 15 - a / 256 % 16 + 1 = 16 - a / 256 % 16 by omega] at rise whole ⊢
    omega

variable (first : T 0 = 0)
include first

/-- From one angle to the next the sine gains in the outer quadrants and loses in the two middle ones. -/
theorem sineValue_succ (a : Nat) : sineValue T (a + 1) =
    if (a + 4096) / 8192 % 2 = 0 then sineValue T a + angleGain T a else sineValue T a - angleGain T a := by
  rw [sineValue_succ_sign first, sineValue]
  rcases Nat.mod_two_eq_zero_or_one (a / 4096) with forward | mirrored
  · rw [sineMagnitude_succ_forward rising forward]
    split_ifs <;> omega
  · rw [sineMagnitude_succ_mirrored rising mirrored]
    split_ifs <;> omega

/-- Where no angle lies in a middle quadrant the sine does not fall. -/
theorem sineValue_monotoneOn {lo hi : Nat} (outer : ∀ a, lo ≤ a → a < hi → (a + 4096) / 8192 % 2 = 0) :
    MonotoneOn (sineValue T) (Set.Icc lo hi) := by
  refine monotoneOn_of_le_add_one Set.ordConnected_Icc fun a _ here next => ?_
  rw [sineValue_succ rising first, if_pos (outer a here.1 next.2)]
  omega

/-- Where every angle lies in a middle quadrant the sine does not rise. -/
theorem sineValue_antitoneOn {lo hi : Nat} (middle : ∀ a, lo ≤ a → a < hi → (a + 4096) / 8192 % 2 = 1) :
    AntitoneOn (sineValue T) (Set.Icc lo hi) := by
  refine antitoneOn_of_add_one_le Set.ordConnected_Icc fun a _ here next => ?_
  have fall := middle a here.1 next.2
  rw [sineValue_succ rising first, if_neg (by omega)]
  omega

end

/-- Settles O46: the circle from 0 to 16384 is a middle stretch between two outer ones. -/
theorem monotonicityNeedsOnlyTheContract : Obligations.MonotonicityNeedsOnlyTheContract := by
  intro s contract
  obtain ⟨first, -, rising⟩ := (meetsContract_iff s.rom).mp contract
  refine ⟨_, contract.sineOf, fun a b ab hi => ?_, fun a b lo ab hi => ?_, fun a b lo ab hi => ?_⟩
  · have outer := sineValue_monotoneOn rising first (lo := 0) (hi := 4096) (by omega)
    exact outer ⟨by omega, by omega⟩ ⟨by omega, hi⟩ ab
  · have middle := sineValue_antitoneOn rising first (lo := 4096) (hi := 12288) (by omega)
    exact middle ⟨lo, by omega⟩ ⟨by omega, hi⟩ ab
  · have outer := sineValue_monotoneOn rising first (lo := 12288) (hi := 16384) (by omega)
    exact outer ⟨lo, by omega⟩ ⟨by omega, hi⟩ ab

/-! The count of 44_laws.md R82: how often the sine stays where it is. -/

/-- A height below 256 is gained one unit at a time, so the fractions that gain nothing are those that are left. -/
theorem count_fractionGain_eq_zero_add {d : Nat} (hd : d ≤ 256) (n : Nat) :
    Nat.count (fun f => fractionGain d f = 0) n + d * n / 256 = n := by
  induction n with
  | zero => simp
  | succ n ih =>
    have next := floor_add_fractionGain d n
    have step : d * (n + 1) = d * n + d := Nat.mul_succ d n
    rw [Nat.count_succ]
    split <;> omega

/-- How many fractions of a segment gain nothing: none in a segment of height 256 or more. -/
theorem count_fractionGain_eq_zero (d : Nat) : Nat.count (fun f => fractionGain d f = 0) 256 = 256 - d := by
  rcases Nat.le_total d 256 with low | high
  · have counted := count_fractionGain_eq_zero_add low 256
    rw [Nat.mul_div_cancel d (by decide)] at counted
    exact Nat.eq_sub_of_add_eq counted
  · rw [Nat.sub_eq_zero_of_le high, Nat.count_iff_forall_not]
    intro f _ none
    have next := floor_add_fractionGain d f
    have step : d * (f + 1) = d * f + d := Nat.mul_succ d f
    omega

/-- How often the sine stays where it is in the first quadrant, segment by segment. -/
theorem count_angleGain_eq_zero (T : Nat → Nat) :
    Nat.count (fun a => angleGain T a = 0) 4096 = ∑ k ∈ Finset.range 16, (256 - segmentHeight T k) := by
  rw [show 4096 = 256 * 16 by decide, count_mul_eq_sum]
  refine Finset.sum_congr rfl fun k hk => ?_
  have inside : k < 16 := Finset.mem_range.mp hk
  rw [← count_fractionGain_eq_zero]
  refine count_congr fun j hj => ?_
  rw [angleGain, effIndex_forward (by omega), show (256 * k + j) / 256 % 16 = k by omega,
    show (256 * k + j) % 256 = j by omega]

/-- A step of the sine stays below 3328 / 256, for no segment of the table is higher than 3212. -/
theorem angleGain_specEntry_le (a : Nat) : angleGain specEntry a ≤ 13 := by
  have heights : ∀ i, i < 16 → segmentHeight specEntry i ≤ 3212 := by decide
  have height := heights (effIndex a) (Nat.lt_succ_of_le (effIndex_le a))
  unfold angleGain
  generalize segmentHeight specEntry (effIndex a) = d at height ⊢
  have next := floor_add_fractionGain d (a % 256)
  have step : d * (a % 256 + 1) = d * (a % 256) + d := Nat.mul_succ d (a % 256)
  omega

/-- Settles O45: each step is a gain or a loss by its quadrant, and the steps of no gain are counted segment by
segment. -/
theorem sineIsMonotoneInEachQuadrant : Obligations.SineIsMonotoneInEachQuadrant := by
  intro s table
  have next := sineValue_succ specEntry_rising rfl
  have level : (List.range 4096).countP (fun a => sineValue specEntry (a + 1) == sineValue specEntry a) = 98 := by
    have total : ∑ k ∈ Finset.range 16, (256 - segmentHeight specEntry k) = 98 := by decide
    rw [← total, ← count_angleGain_eq_zero, Nat.count]
    refine List.countP_congr fun a ha => ?_
    have inside := List.mem_range.mp ha
    rw [next a, if_pos (by omega), beq_iff_eq, decide_eq_true_iff]
    omega
  refine ⟨_, table.sineOf_specEntry, fun a hi => ?_, fun a lo hi => ?_, fun a lo hi => ?_, fun a lo hi => ?_, by decide,
    by decide, level, by decide, by decide, by decide, fun a _ => ?_⟩
  · rw [next a, if_pos (by omega)]
    omega
  · rw [next a, if_neg (by omega)]
    omega
  · rw [next a, if_neg (by omega)]
    omega
  · rw [next a, if_pos (by omega)]
    omega
  · have small := angleGain_specEntry_le a
    rw [next a]
    split <;> omega

/-- Settles O52: the closed form of the first quadrant in segment 15, of height 158. -/
theorem lastTableSegment : Obligations.LastTableSegment := by
  intro s table
  refine ⟨_, table.sineOf_specEntry, fun a lo hi => ?_, by decide, by decide, by decide⟩
  have ends : specEntry 15 = 32609 ∧ segmentHeight specEntry 15 = 158 := by decide
  rw [sineValue_upper _ (by omega), sineMagnitude_forward specEntry_rising (by omega),
    show a / 256 % 16 = 15 by omega, show a % 256 = a - 3840 by omega, ends.1, ends.2]
  constructor <;> omega

end Sys2Proof.Machine
end

section
/-! SUPPORT. The mirror laws (44_laws.md R87, R89, R90): the sine about the quarter circle, the literal cosine and the
cosine about 0 are odd symmetry seen from half a turn further on. -/

namespace Sys2Proof.Machine

/-- The sine half a turn past the reflected angle is the difference that odd symmetry bounds. -/
theorem sineValue_sub_eq_oddSum (T : Nat → Nat) {a b c : Nat} (ha : a ≤ 16384) (same : b % 16384 = a % 16384)
    (mirrored : (c + a) % 16384 = 8192) : sineValue T b - sineValue T c = oddSum T a := by
  have reflected : sineValue T (16384 - a) = -sineValue T c := by
    rw [← sineValue_halfTurn]
    exact sineValue_congr_mod T (by omega)
  rw [oddSum, reflected, sineValue_congr_mod T same, Int.sub_eq_add_neg]

section
variable {T : Nat → Nat} (first : T 0 = 0) (rising : ∀ i, i < 16 → T i ≤ T (i + 1))
include first rising

/-- In the two middle quadrants odd symmetry misses upward only. -/
theorem oddSum_middle {a : Nat} (lo : 4096 ≤ a) (hi : a ≤ 12288) : oddSum T a = 0 ∨ oddSum T a = 1 := by
  rcases Nat.lt_or_eq_of_le hi with inside | rfl
  · have side : oddSumSide a = 1 := if_pos (by omega)
    rw [oddSum_eq T first rising (by omega), side]
    exact ite_eq_or_eq _ 0 1
  · exact .inl (oddSum_sample T first (by decide) (by decide))

/-- How often the sum of odd symmetry is `c` in `n` segments from segment `k₀` on. -/
theorem count_oddSum_segments (c : Int) {k₀ n : Nat} (inside : k₀ + n ≤ 64) :
    Nat.count (fun j => oddSum T (256 * k₀ + j) = c) (256 * n) =
      ∑ k ∈ Finset.range n, segmentCount T c (k₀ + k) := by
  rw [count_mul_eq_sum]
  refine Finset.sum_congr rfl fun k hk => ?_
  have bound : k < n := Finset.mem_range.mp hk
  rw [← count_segment T first rising c (by omega)]
  refine count_congr fun j _ => ?_
  rw [Nat.mul_add, Nat.add_assoc]

end

/-- The counts of 44_laws.md R87 and R89, added up over the 16 segments of each of the two middle quadrants. -/
theorem sum_segmentCount_middle :
    ∑ k ∈ Finset.range 16, segmentCount specEntry 0 (16 + k) = 31 ∧
      ∑ k ∈ Finset.range 16, segmentCount specEntry 1 (16 + k) = 4065 ∧
      ∑ k ∈ Finset.range 16, segmentCount specEntry 0 (32 + k) = 31 ∧
      ∑ k ∈ Finset.range 16, segmentCount specEntry 1 (32 + k) = 4065 := by decide

/-- Mirror symmetry about the quarter circle (44_laws.md R87). -/
theorem sineValue_mirror (T : Nat → Nat) {k : Nat} (hk : k ≤ 4096) :
    sineValue T (4096 + k) - sineValue T (4096 - k) = oddSum T (4096 + k) :=
  sineValue_sub_eq_oddSum T (by omega) rfl (by omega)

/-- The count of 44_laws.md R87: the second quadrant, and the half circle after it, where the sine is exact. -/
theorem countP_mirror (c : Int) :
    (List.range 4097).countP (fun k => sineValue specEntry (4096 + k) - sineValue specEntry (4096 - k) == c) =
      ∑ k ∈ Finset.range 16, segmentCount specEntry c (16 + k) + if 0 = c then 1 else 0 := by
  have lastExact : oddSum specEntry (4096 + 4096) = 0 := oddSum_sample specEntry rfl (by decide) (by decide)
  have segments := count_oddSum_segments rfl specEntry_rising c (k₀ := 16) (n := 16) (by decide)
  rw [← segments, ← lastExact, ← Nat.count_succ (fun k => oddSum specEntry (4096 + k) = c), Nat.count]
  refine List.countP_congr fun k hk => ?_
  have inside := List.mem_range.mp hk
  rw [sineValue_mirror specEntry (by omega), beq_iff_eq, decide_eq_true_iff]

/-- Settles O51: the difference is that of odd symmetry in the second quadrant, which misses upward only. -/
theorem mirrorSymmetryWithinOneUnit : Obligations.MirrorSymmetryWithinOneUnit := by
  intro s table
  obtain ⟨level, above, -, -⟩ := sum_segmentCount_middle
  refine ⟨_, table.sineOf_specEntry, fun k hk => ?_, ?_, ?_, fun j hj => ?_⟩
  · rw [sineValue_mirror specEntry hk]
    exact oddSum_middle rfl specEntry_rising (by omega) (by omega)
  · rw [countP_mirror, level, if_pos rfl]
  · rw [countP_mirror, above, if_neg (by decide)]
  · have mirror := sineValue_mirror specEntry (k := 256 * j) (by omega)
    rw [oddSum_sample specEntry rfl (by omega) (by omega)] at mirror
    exact Int.sub_eq_zero.mp mirror

/-! The source's literal cosine (44_laws.md R89, 90_conflicts.md C6). -/

/-- In the else branch of the source the literal cosine is COS. -/
theorem sineValue_cosLitAngle_eq (T : Nat → Nat) {a : Nat} (ha : a ≤ 12288) :
    sineValue T (cosLitAngle a) = cosineValue T a := by
  rw [cosLitAngle, if_neg (by omega)]
  exact sineValue_congr_mod T (by omega)

/-- In the first branch of the source the literal cosine misses COS by what odd symmetry misses (44_laws.md R89). -/
theorem sineValue_cosLitAngle_sub (T : Nat → Nat) {a : Nat} (lo : 12288 < a) (hi : a < 65536) :
    sineValue T (cosLitAngle a) - cosineValue T a = oddSum T (cosLitAngle a % 16384) := by
  have literal : cosLitAngle a = (118784 - a) % 65536 := if_pos lo
  refine sineValue_sub_eq_oddSum T (Nat.mod_lt _ (by decide)).le (Nat.mod_mod _ _).symm ?_
  rw [literal]
  omega

theorem oddSum_reflected (T : Nat → Nat) {a : Nat} (ha : a ≤ 16384) : oddSum T (16384 - a) = oddSum T a := by
  rw [oddSum, oddSum, Nat.sub_sub_self ha, Int.add_comm]

/-- From 12289 to 16383 that is odd symmetry in the third quadrant. -/
theorem sineValue_cosLitAngle_sub_eq (T : Nat → Nat) {a : Nat} (lo : 12288 < a) (hi : a ≤ 16383) :
    sineValue T (cosLitAngle a) - cosineValue T a = oddSum T (a - 4096) := by
  have literal : cosLitAngle a = (118784 - a) % 65536 := if_pos lo
  rw [sineValue_cosLitAngle_sub T lo (by omega), ← oddSum_reflected T (a := a - 4096) (by omega), literal]
  exact congrArg _ (by omega)

/-- The count of 44_laws.md R89: the third quadrant without the angle at which it begins, where the sine is exact. -/
theorem countP_cosLitAngle (c : Int) :
    (List.range' 12289 4095).countP
        (fun a => sineValue specEntry (cosLitAngle a) - cosineValue specEntry a == c) + (0 == c).toNat =
      ∑ k ∈ Finset.range 16, segmentCount specEntry c (32 + k) := by
  have firstExact : oddSum specEntry (8192 + 0) = 0 := oddSum_sample specEntry rfl (by decide) (by decide)
  have quadrant := countP_range'_one (fun j => oddSum specEntry (8192 + j) == c) 4095
  have segments := count_oddSum_segments rfl specEntry_rising c (k₀ := 32) (n := 16) (by decide)
  have shifted : List.range' 12289 4095 = (List.range' 1 4095).map (12288 + ·) :=
    (List.map_add_range' 1 4095 1).symm
  simp only [firstExact, beq_iff_eq] at quadrant
  rw [← segments, ← quadrant, shifted, List.countP_map]
  refine congrArg (· + _) (List.countP_congr fun j hj => ?_)
  obtain ⟨lo, hi⟩ := List.mem_range'_1.mp hj
  rw [Function.comp_apply, sineValue_cosLitAngle_sub_eq specEntry (by omega) (by omega),
    show 12288 + j - 4096 = 8192 + j by omega]

/-- Settles O53: the literal cosine is COS, or misses it by what odd symmetry misses, upward in the third quadrant. -/
theorem literalCosineDiffersFromCosine : Obligations.LiteralCosineDiffersFromCosine := by
  intro s table
  obtain ⟨-, -, level, above⟩ := sum_segmentCount_middle
  have cosine : CosineOf s (cosineValue specEntry) := cosineOf_table table rfl rfl specEntry_rising
  refine ⟨_, cosineValue specEntry, table.sineOf_specEntry, cosine, fun a hi =>
    sineValue_cosLitAngle_eq specEntry hi, fun a lo hi => ?_, ?_, ?_, fun a lo hi => ?_, 16385, by decide, by decide⟩
  · rw [sineValue_cosLitAngle_sub_eq specEntry (by omega) hi]
    exact oddSum_middle rfl specEntry_rising (by omega) (by omega)
  · have counted := countP_cosLitAngle 0
    rw [level, beq_self_eq_true, Bool.toNat_true] at counted
    exact Nat.eq_sub_of_add_eq counted
  · have counted := countP_cosLitAngle 1
    rw [above, show ((0 : Int) == 1) = false from rfl, Bool.toNat_false, Nat.add_zero] at counted
    exact counted
  · rw [sineValue_cosLitAngle_sub specEntry (by omega) hi]
    exact oddSum_bounds specEntry rfl specEntry_rising (Nat.mod_lt _ (by decide)).le

/-- The cosine about 0 (44_laws.md R90). -/
theorem cosineValue_sub_reflected (T : Nat → Nat) {a : Nat} (ha : a ≤ 16383) :
    cosineValue T a - cosineValue T ((16384 - a) % 16384) = oddSum T ((a + 4096) % 16384) :=
  sineValue_sub_eq_oddSum T (Nat.mod_lt _ (by decide)).le rfl (by omega)

/-- Settles O54: the cosine is the sine one quadrant further on, which falls, then rises, and reads the samples from the
last one down. -/
theorem consequencesForCosine : Obligations.ConsequencesForCosine := by
  intro s T look first last rising
  have shifted : ∀ a, cosineValue T a = sineValue T (a + 4096) := fun a => sineValue_mod T (a + 4096)
  refine ⟨cosineValue T, cosineOf_table look first last rising, fun a b ab hi => ?_, fun a b lo ab hi => ?_,
    fun k hk => ?_, fun a ha => ?_⟩
  · have falls := sineValue_antitoneOn rising first (lo := 4096) (hi := 12288) (by omega)
    rw [shifted, shifted]
    exact falls ⟨by omega, by omega⟩ ⟨by omega, by omega⟩ (Nat.add_le_add_right ab 4096)
  · have rises := sineValue_monotoneOn rising first (lo := 12288) (hi := 20480) (by omega)
    rw [shifted, shifted]
    exact rises ⟨by omega, by omega⟩ ⟨by omega, by omega⟩ (Nat.add_le_add_right ab 4096)
  · rw [shifted, Nat.add_comm, sineValue_sampleDown T first hk]
  · rw [cosineValue_sub_reflected T ha]
    exact oddSum_bounds T first rising (Nat.mod_lt _ (by decide)).le

end Sys2Proof.Machine
end
